-- ==== Sys2Proof/Word.lean ====
section
/-! DEFINITION. The word types of `segdisp_core` (00_scope.md R5, R6, R9): every value is unsigned. -/

namespace Sys2Proof

/-- A host command word or response word: `CMD_W` = `RESP_W` = 32 (R6, R48, R54). -/
abbrev Word := BitVec 32

/-- One byte on the bus. -/
abbrev Byte := BitVec 8

/-- A segment mask: `MASK_W` = 16 (R5, R58). -/
abbrev Mask := BitVec 16

/-- A code point: `CHAR_W` = 21 (R6, R11). -/
abbrev CodePoint := BitVec 21

/-- An I2C device address: `ADDR_W` = 7 (R5, R31). -/
abbrev DevAddr := BitVec 7

end Sys2Proof
end

