-- ==== Sys2Proof/Config.lean ====
section
/-! DEFINITION. What is fixed when a block is built (00_scope.md R6; 10_state.md section 1, "The configuration is
not state"): the parameters the spec leaves OPEN. The parameters it fixes (R5) stand in Machine/Params.lean. -/

namespace Sys2Proof

/-- One block's configuration (R6). Every value of this type stands for a configuration the spec allows, and every
configuration the spec allows is a value of it (Machine/Operands.lean says how the maps are read). -/
structure Build where
  /-- The masks of `DEFAULT_MAP` for 0x20, 0x21, ..., 0x7E in this order (R64, D10). The entry of '.' is never read. -/
  defaultTable : List Mask
  /-- `CUSTOM_MAP`, or `none` where `HAS_CUSTOM_MAP` is false (R66, D11). -/
  customMap : Option (List (CodePoint × Mask))
  /-- `BUS_ERR_W` - 1, so that the width lies in 1..24 (R6, D9). -/
  busErrIndex : Fin 24
deriving DecidableEq, Repr, Inhabited

/-- `HAS_CUSTOM_MAP` (R6). -/
def Build.hasCustomMap (b : Build) : Bool := b.customMap.isSome

/-- `BUS_ERR_W`, in 1..24 (R6, D9). -/
def Build.busErrWidth (b : Build) : Nat := b.busErrIndex.val + 1

/-- The configuration of the block a run starts from. It has no body: the spec leaves every part of it OPEN
(D9, D10, D11), so nothing can be proved of it (log entry 1). -/
opaque Config.built : Build

end Sys2Proof
end

