-- ==== Sys2Proof/Machine/Params.lean ====
section
/-! DEFINITION. The parameters whose values the spec fixes (00_scope.md R5), each one named constant (U30). -/

namespace Sys2Proof.Machine

/-- `NCELLS`: the display has exactly four character positions. -/
def ncellsMax : BitVec 3 := 4

/-- `DP_MASK`: bit 14, the decimal point (R58). -/
def dpMask : Mask := 0x4000

/-- `PERIOD`: the code point of '.' (R11). -/
def period : CodePoint := 0x2E

/-- `RAM_CMD`: the register-select byte, display RAM start. -/
def ramCmd : Byte := 0x00

/-- `CMD_OSC`: enable internal oscillator. -/
def cmdOsc : Byte := 0x21

/-- `CMD_DISP`: enable display, no blink. -/
def cmdDisp : Byte := 0x81

/-- `CMD_BRT_BASE`. -/
def cmdBrtBase : Byte := 0xE0

/-- `BRIGHTNESS`, a constant (R73). -/
def brightnessLevel : BitVec 4 := 15

/-- The third bring-up byte, `0xE0 OR (BRIGHTNESS AND 0x0F)` (R73). -/
def cmdBrightness : Byte := cmdBrtBase ||| brightnessLevel.setWidth 8

/-- The first code point of `DEFAULT_DOMAIN`. -/
def domainLow : CodePoint := 0x20

/-- The last code point of `DEFAULT_DOMAIN`. -/
def domainHigh : CodePoint := 0x7E

/-- The last Unicode code point: a key of `CUSTOM_MAP` is at most this (40_lut.md R66). -/
def lastCodePoint : CodePoint := 0x10FFFF

end Sys2Proof.Machine
end

