-- ==== Sys2Proof/Syntax.lean ====
section
/-! DEFINITION. The instructions: one constructor per row of spec/opcode_table.json. -/

namespace Sys2Proof

/-- Nine bytes: the display frame, or the register `txbuf[0..8]` (30_encoding.md R57, 10_state.md R20). -/
structure Frame where
  b0 : Byte
  b1 : Byte
  b2 : Byte
  b3 : Byte
  b4 : Byte
  b5 : Byte
  b6 : Byte
  b7 : Byte
  b8 : Byte
deriving DecidableEq, Repr, Inhabited

/-- What the block can be made to do (30_encoding.md R49, R56). The first nine are host command words. The last four are
the byte patterns the block puts on the bus: running one is the step in which the bus answers that transaction. -/
inductive Instr where
  /-- NOP (44_control.md R104). -/
  | nop
  /-- INIT: `addr7 = cmd[6:0]`, `custom = cmd[7]` (41_init_fsm.md R74). -/
  | init (addr7 : DevAddr) (custom : Bool)
  /-- CHAR: `cp = cmd[20:0]` (42_text_encoder.md R88). -/
  | char (cp : CodePoint)
  /-- MASK: `mask = cmd[15:0]` (42_text_encoder.md R89). -/
  | mask (m : Mask)
  /-- SHOW (43_frame_writer.md R95). -/
  | showText
  /-- LOOKUP: `cp = cmd[20:0]` (40_lut.md R71). -/
  | lookup (cp : CodePoint)
  /-- CLEAR (42_text_encoder.md R90). -/
  | clear
  /-- STATUS (44_control.md R105). -/
  | status
  /-- RESERVED: a word that names no operation (30_encoding.md R52). -/
  | reserved
  /-- BUS_OSC_ON: the one-byte write 0x21 (41_init_fsm.md R75). -/
  | busOscOn
  /-- BUS_DISP_ON: the one-byte write 0x81 (41_init_fsm.md R76). -/
  | busDispOn
  /-- BUS_BRIGHTNESS: the one-byte write 0xEF (41_init_fsm.md R77). -/
  | busBrightness
  /-- BUS_FRAME: the nine-byte raw write (43_frame_writer.md R96). -/
  | busFrame (f : Frame)
deriving DecidableEq, Repr

end Sys2Proof
end

