-- ==== Sys2Proof/WellFormed.lean ====
section
/-! DEFINITION. Which terms of `Instr` stand for something the block can be given or can send. -/

namespace Sys2Proof

/-- The first byte of a frame is the register-select byte 0x00 (30_encoding.md R57). -/
def Frame.wf (f : Frame) : Bool := f.b0 == Machine.ramCmd

/-- INIT with `custom = 1` is a command only where a custom map is built in (30_encoding.md R52), and a frame starts with
the register-select byte. Every other term is well formed. -/
def Instr.wf (hasCustomMap : Bool) (i : Instr) : Bool :=
  match i with
  | .nop => true
  | .init _ custom => !custom || hasCustomMap
  | .char _ => true
  | .mask _ => true
  | .showText => true
  | .lookup _ => true
  | .clear => true
  | .status => true
  | .reserved => true
  | .busOscOn => true
  | .busDispOn => true
  | .busBrightness => true
  | .busFrame f => f.wf

end Sys2Proof
end

