-- ==== Sys2Proof/Decode.lean ====
section
/-! DEFINITION. The decoder and the encoder (30_encoding.md R48 to R57, 44_control.md R103). A command word and a byte
string on the bus are read on two different interfaces, so a code says which of the two it is. -/

namespace Sys2Proof

/-- What an instruction is written as: a word on the command port (R48), or a byte string on the bus (R56). -/
inductive Code where
  | command (w : Word)
  | wire (bytes : List Byte)
deriving DecidableEq, Repr

/-- Why a byte string is none of the four the block sends (R56). Every command word decodes (R53), so these are the only
rejections. -/
inductive Reject where
  /-- A one-byte write that is none of 0x21, 0x81, 0xEF. -/
  | unknownBringUpByte (b : Byte)
  /-- A nine-byte write whose first byte is not the register-select byte 0x00. -/
  | unknownRegisterSelect (b : Byte)
  /-- A write of neither one byte nor nine. -/
  | wrongLength (n : Nat)
deriving DecidableEq, Repr

/-- `op = cmd[31:28]` (R48). -/
def opField (w : Word) : BitVec 4 := w.extractLsb' 28 4

/-- `addr7 = cmd[6:0]` (R50). -/
def addrField (w : Word) : DevAddr := w.extractLsb' 0 7

/-- `custom = cmd[7]` (R50). -/
def customField (w : Word) : Bool := w.getLsbD 7

/-- `cp = cmd[20:0]` (R50). -/
def cpField (w : Word) : CodePoint := w.extractLsb' 0 21

/-- `mask = cmd[15:0]` (R50). -/
def maskField (w : Word) : Mask := w.extractLsb' 0 16

/-- The command decoder of 44_control.md R103, total over all words. -/
def decodeCommand (hasCustomMap : Bool) (w : Word) : Instr :=
  match (opField w).toNat with
  | 0 => .nop
  | 1 => if customField w && !hasCustomMap then .reserved else .init (addrField w) (customField w)
  | 2 => .char (cpField w)
  | 3 => .mask (maskField w)
  | 4 => .showText
  | 5 => .lookup (cpField w)
  | 6 => .clear
  | 7 => .status
  | _ => .reserved

/-- The four byte strings the block sends (R56, R57). -/
def decodeWire (bytes : List Byte) : Except Reject Instr :=
  match bytes with
  | [b] =>
    if b = Machine.cmdOsc then .ok .busOscOn
    else if b = Machine.cmdDisp then .ok .busDispOn
    else if b = Machine.cmdBrightness then .ok .busBrightness
    else .error (.unknownBringUpByte b)
  | [b0, b1, b2, b3, b4, b5, b6, b7, b8] =>
    if b0 = Machine.ramCmd then .ok (.busFrame ⟨b0, b1, b2, b3, b4, b5, b6, b7, b8⟩)
    else .error (.unknownRegisterSelect b0)
  | bs => .error (.wrongLength bs.length)

/-- The decoder over both interfaces. -/
def decode (hasCustomMap : Bool) (c : Code) : Except Reject Instr :=
  match c with
  | .command w => .ok (decodeCommand hasCustomMap w)
  | .wire bytes => decodeWire bytes

/-- Format F0: only the opcode is named; an ignored bit is written 0 (R48, R60). -/
def formatF0 (op : BitVec 4) : Word := op ++ 0#28

/-- Format FI (R48). -/
def formatFI (op : BitVec 4) (custom : Bool) (a : DevAddr) : Word := op ++ 0#20 ++ BitVec.ofBool custom ++ a

/-- Format FC (R48). -/
def formatFC (op : BitVec 4) (cp : CodePoint) : Word := op ++ 0#7 ++ cp

/-- Format FM (R48). -/
def formatFM (op : BitVec 4) (m : Mask) : Word := op ++ 0#12 ++ m

/-- The nine bytes in the order sent (R57). -/
def Frame.toList (f : Frame) : List Byte := [f.b0, f.b1, f.b2, f.b3, f.b4, f.b5, f.b6, f.b7, f.b8]

/-- The encoder: the word of R60, with the ignored bits 0, or the bytes of R56 and R57. -/
def encode (i : Instr) : Code :=
  match i with
  | .nop => .command (formatF0 0x0)
  | .init a custom => .command (formatFI 0x1 custom a)
  | .char cp => .command (formatFC 0x2 cp)
  | .mask m => .command (formatFM 0x3 m)
  | .showText => .command (formatF0 0x4)
  | .lookup cp => .command (formatFC 0x5 cp)
  | .clear => .command (formatF0 0x6)
  | .status => .command (formatF0 0x7)
  | .reserved => .command (formatF0 0x8)
  | .busOscOn => .wire [Machine.cmdOsc]
  | .busDispOn => .wire [Machine.cmdDisp]
  | .busBrightness => .wire [Machine.cmdBrightness]
  | .busFrame f => .wire f.toList

/-- The bits a command word's format does not name (R48): they are ignored (R51). A reserved opcode names no operand. -/
def ignoredBits (w : Word) : Word :=
  match (opField w).toNat with
  | 1 => 0x0FFFFF00
  | 2 => 0x0FE00000
  | 3 => 0x0FFF0000
  | 5 => 0x0FE00000
  | _ => 0x0FFFFFFF

/-- `n` bytes of `w`, the lowest eight bits first. -/
def bytesOf : Nat → Nat → List Byte
  | 0, _ => []
  | n + 1, w => BitVec.ofNat 8 w :: bytesOf n (w / 256)

/-- The byte string of a table row: nine bytes where the first is the register-select byte, else the bytes the row has. -/
def tableBytes (nbits w : Nat) : List Byte :=
  if BitVec.ofNat 8 w = Machine.ramCmd then bytesOf 9 w else bytesOf (nbits / 8) w

/-- What the decoder reads from the bits `w` of an opcode-table row: a row of 32 bits is a word on the command port, and a
row of bytes is a byte string on the bus. -/
def decodeTableWord (nbits w : Nat) : Option Instr :=
  if nbits = 32 then some (decodeCommand Config.built.hasCustomMap (BitVec.ofNat 32 w))
  else (decodeWire (tableBytes nbits w)).toOption

end Sys2Proof
end

