-- ==== Sys2Proof/Machine/Memory.lean ====
section
/-! DEFINITION. Byte memory as address and byte pairs. The one memory of this hardware outside the block's registers is the
chip's display RAM (20_memory.md R33), of which only what the block has been told is known: an unlisted address reads as
no value. Canonical form: addresses strictly rising. Nothing listed can equal what an unlisted address reads as. -/

namespace Sys2Proof.Machine

/-- Known bytes by address, in rising order of address. -/
abbrev Memory := List Host.Cell

/-- The canonical form: addresses strictly rising. -/
def Memory.wf : Memory → Bool
  | [] => true
  | [_] => true
  | c :: d :: rest => decide (c.1 < d.1) && Memory.wf (d :: rest)

/-- The byte at an address, or no value where it is not known. -/
def Memory.read : Memory → Nat → Option Byte
  | [], _ => none
  | c :: rest, a => if a = c.1 then some c.2 else Memory.read rest a

/-- Set the byte at an address. -/
def Memory.write : Memory → Nat → Byte → Memory
  | [], a, b => [(a, b)]
  | c :: rest, a, b =>
    if a < c.1 then (a, b) :: c :: rest
    else if a = c.1 then (a, b) :: rest
    else c :: Memory.write rest a b

/-- Make the byte at an address unknown. -/
def Memory.forget : Memory → Nat → Memory
  | [], _ => []
  | c :: rest, a => if a = c.1 then Memory.forget rest a else c :: Memory.forget rest a

/-- Set consecutive bytes from an address on. -/
def Memory.writeBytes (m : Memory) (a : Nat) (bytes : List Byte) : Memory :=
  match bytes with
  | [] => m
  | b :: rest => Memory.writeBytes (m.write a b) (a + 1) rest

/-- Make `n` consecutive bytes from an address on unknown. -/
def Memory.forgetBytes (m : Memory) (a : Nat) (n : Nat) : Memory :=
  match n with
  | 0 => m
  | n + 1 => Memory.forgetBytes (m.forget a) (a + 1) n

end Sys2Proof.Machine
end

