-- ==== Sys2Proof/Machine/State.lean ====
section
/-! DEFINITION. The state: every register of 10_state.md section 1, and beside them what the spec puts around the block (its
configuration, the moves of the host and the bus, the observation of R8, the chip shadow of R123). Plain data. -/

namespace Sys2Proof.Machine

/-- The controller register `st`, one name per value of its three bits (10_state.md R12). -/
inductive Ctrl where
  /-- 0: no bring-up has been attempted since reset. -/
  | uninit
  /-- 1: bring-up write 1 (0x21) is outstanding. -/
  | initOsc
  /-- 2: bring-up write 2 (0x81) is outstanding. -/
  | initDisp
  /-- 3: bring-up write 3 (0xEF) is outstanding. -/
  | initBrt
  /-- 4: bring-up completed; a Display exists. -/
  | ready
  /-- 5: the nine-byte frame write is outstanding. -/
  | frameTx
  /-- 6: the last bring-up aborted on a bus error. -/
  | failed
  /-- 7: no rule writes it (R26). -/
  | code7
deriving DecidableEq, Repr

/-- The four cell registers `cells[0..3]` (R17). -/
structure Cells where
  c0 : Mask
  c1 : Mask
  c2 : Mask
  c3 : Mask
deriving DecidableEq, Repr

/-- The kind of a bus transaction (30_encoding.md R55). -/
inductive BusKind where
  /-- `CMD1`: a single-byte register write. -/
  | cmd1
  /-- `RAW`: a raw nine-byte write. -/
  | raw
deriving DecidableEq, Repr

/-- A bus transaction `(kind, a, bytes)` (R55). -/
structure Transaction where
  kind : BusKind
  addr : DevAddr
  bytes : List Byte
deriving DecidableEq, Repr

/-- The bus agent's answer (R55): `OK`, or `ERR(e)`, where the `BUS_ERR_W`-bit code `e` is held as the 24 bits `zext_24(e)`
it is reported in (R54). A code that does not fit the build's width is no answer, and is refused (log entry 14). -/
inductive BusAnswer where
  | ok
  | err (e : BitVec 24)
deriving DecidableEq, Repr

/-- One entry of the observed list of bus transactions (00_scope.md R8): the transaction and the answer it received, or
`none` where it has received none: reset abandoned it (70_reset_and_hazards.md R127), or it is still outstanding. -/
structure BusRecord where
  tx : Transaction
  answer : Option BusAnswer
deriving DecidableEq, Repr

/-- One move of the block's surroundings (00_scope.md R7, 44_control.md R106). -/
inductive Input where
  /-- The host puts a command word on the command port. -/
  | offer (w : Word)
  /-- The host takes the waiting response. -/
  | take
  /-- The bus agent answers the outstanding transaction. -/
  | answer (r : BusAnswer)
  /-- The host asserts reset. -/
  | reset
deriving DecidableEq, Repr

/-- What the LED driver chip has been told (60_exceptions.md R123); `none` is not known. It is no state of the block. -/
structure Chip where
  oscOn : Option Bool
  dispOn : Option Bool
  blinkOff : Option Bool
  brightness : Option (BitVec 4)
  ram : Memory
deriving DecidableEq, Repr

/-- The state. The first eleven fields are the registers of 10_state.md section 1. -/
structure State where
  /-- `st` (R12). -/
  st : Ctrl
  /-- `addr` (R15). -/
  addr : DevAddr
  /-- `map_sel`: true binds the custom map (R16). -/
  mapSel : Bool
  /-- `cells[0..3]` (R17). -/
  cells : Cells
  /-- `ncells`, the number of committed cells (R17). -/
  ncells : BitVec 3
  /-- `pend`: a looked-up character awaits its possible period (R18). -/
  pend : Bool
  /-- `pmask`: the mask of the pending character (R18). -/
  pmask : Mask
  /-- `ovf`: a fifth cell was attempted (R19). -/
  ovf : Bool
  /-- `txbuf[0..8]` (R20). -/
  txbuf : Frame
  /-- `resp_valid`: a response waits for the host (R21). -/
  respValid : Bool
  /-- `resp`: the waiting response word (R21). -/
  resp : Word
  /-- The configuration the block was built with; no step writes it (00_scope.md R6, log entry 1). -/
  build : Build
  /-- Words offered and not yet accepted, oldest first (44_control.md R100, log entry 3). -/
  waiting : List Word
  /-- The moves the host and the bus still make, in order (R7, log entry 2). -/
  inputs : List Input
  /-- The bus transactions that have ended, with their answers, in order. The one still outstanding follows from the
  registers (R32); `State.issued` puts it after these (R8, log entry 7). -/
  busLog : List BusRecord
  /-- The response words the host has taken, in order (R8, log entry 7). -/
  respLog : List Word
  /-- What the chip has been told (R123, log entry 8). -/
  chip : Chip
deriving DecidableEq, Repr

/-- Why the model stops. -/
inductive Fault where
  /-- Raised by the host's take step when the response word has a code 0x5..0xF, which no rule ever produces
  (93_implementation_defined.md U17). Safe: no reachable state has such a word. -/
  | unknownResponseCode (code : BitVec 4)
deriving DecidableEq, Repr

/-- Why the model gives a step no meaning. -/
inductive Refusal where
  /-- Answered only by an arm of `exec` whose instruction has no meaning yet. Safe. -/
  | notModelled (mnemonic : String)
  /-- Answered by a step in `st = 7`, which no rule reaches (93_implementation_defined.md U18). Safe. -/
  | unreachableController
  /-- Answered by a step in which the host takes a response while none waits: R106 gives the host no such move, and R4
  refuses it (log entry 25). Safe. -/
  | noResponseToTake
  /-- Answered by the meaning of a bus row, and so by its step, where the answer's code is wider than `BUS_ERR_W`: R55 gives
  the bus no such answer, and R4 refuses it (log entry 14). Safe. -/
  | wideErrorCode
  /-- Answered by the meaning of a bus row run in a state where its transaction is not the outstanding one (R4, R32): no
  step of the machine does this. Safe. -/
  | notOutstanding
deriving DecidableEq, Repr

/-- All four cells 0x0000. -/
def Cells.zero : Cells := ⟨0, 0, 0, 0⟩

/-- Nine zero bytes. -/
def Frame.zero : Frame := ⟨0, 0, 0, 0, 0, 0, 0, 0, 0⟩

/-- Nothing is known of the chip (R123, U11). -/
def Chip.unknown : Chip :=
  { oscOn := none, dispOn := none, blinkOff := none, brightness := none, ram := [] }

/-- The machine right after reset: the registers at the values of 10_state.md section 1 (70_reset_and_hazards.md R127), no
move of the surroundings pending, nothing observed yet, nothing known of the chip. -/
def State.reset : State :=
  { st := .uninit, addr := 0x00, mapSel := false, cells := Cells.zero, ncells := 0, pend := false, pmask := 0x0000,
    ovf := false, txbuf := Frame.zero, respValid := false, resp := 0x00000000, build := Config.built, waiting := [],
    inputs := [], busLog := [], respLog := [], chip := Chip.unknown }

end Sys2Proof.Machine
end

