-- ==== Sys2Proof/Machine/Flags.lean ====
section
/-! DEFINITION. The conditions and the status word computed from the registers (10_state.md R12 to R14, R24;
44_control.md R100, R105). -/

namespace Sys2Proof.Machine

/-- The encoding of `st` (R12). -/
def Ctrl.code (c : Ctrl) : BitVec 3 :=
  match c with
  | .uninit => 0
  | .initOsc => 1
  | .initDisp => 2
  | .initBrt => 3
  | .ready => 4
  | .frameTx => 5
  | .failed => 6
  | .code7 => 7

/-- `idle(st)` (R13). -/
def Ctrl.idle (c : Ctrl) : Bool :=
  match c with
  | .uninit | .ready | .failed => true
  | .initOsc | .initDisp | .initBrt | .frameTx | .code7 => false

/-- `busy(st)` (R13). -/
def Ctrl.busy (c : Ctrl) : Bool :=
  match c with
  | .initOsc | .initDisp | .initBrt | .frameTx => true
  | .uninit | .ready | .failed | .code7 => false

/-- A command is accepted exactly when `idle(st)` and `resp_valid = 0` (R100). -/
def State.portReady (s : State) : Bool := s.st.idle && !s.respValid

/-- The data field of a STATUS response (R105): `zext_28({map_sel, addr, ovf, pend, ncells, st})`. -/
def statusData (s : State) : BitVec 28 :=
  (BitVec.ofBool s.mapSel ++ s.addr ++ BitVec.ofBool s.ovf ++ BitVec.ofBool s.pend ++ s.ncells ++ s.st.code).setWidth 28

/-- `code = resp[31:28]` (30_encoding.md R54). -/
def respCode (w : Word) : BitVec 4 := w.extractLsb' 28 4

/-- `data = resp[27:0]` (R54). -/
def respData (w : Word) : BitVec 28 := w.extractLsb' 0 28

end Sys2Proof.Machine
end

