-- ==== Sys2Proof/Machine/Operands.lean ====
section
/-! DEFINITION. How a code point operand becomes a mask: the LUT (40_lut.md R62 to R66). A MASK operand is used as it is
(30_encoding.md R50). -/

namespace Sys2Proof.Machine

/-- `DEFAULT_MAP(c)` (R64): 0x0000 for '.' and outside 0x20..0x7E, else the built-in value. -/
def defaultMap (b : Build) (c : CodePoint) : Mask :=
  if c < domainLow ∨ domainHigh < c ∨ c = period then 0x0000
  else b.defaultTable.getD (c.toNat - domainLow.toNat) 0x0000

/-- `CUSTOM_MAP(c)` where `c` is a key, else 0x0000 (R62, R66). A key is a Unicode code point (log entry 17). -/
def customMap (b : Build) (c : CodePoint) : Mask :=
  match b.customMap with
  | none => 0x0000
  | some entries => if lastCodePoint < c then 0x0000 else (entries.lookup c).getD 0x0000

/-- `LutRead(c)` (R62): the mask the bound map gives `c`. It is total and writes nothing. -/
def lutRead (s : State) (c : CodePoint) : Mask :=
  if s.mapSel then customMap s.build c else defaultMap s.build c

/-- A mask with its decimal point lit (R58, R88). -/
def decorate (m : Mask) : Mask := m ||| dpMask

end Sys2Proof.Machine
end

