-- ==== Sys2Proof/Machine/Ops.lean ====
section
/-! DEFINITION. The operations the rules share (00_scope.md R10): responses and errors, the encoder's clear and commit, the
outstanding transaction and its answer, the host's take, reset. -/

namespace Sys2Proof.Machine

/-! ## Cells -/

/-- `cells[k]` (R9); there are cells 0 to 3 only. -/
def Cells.get (c : Cells) (k : Nat) : Mask :=
  match k with
  | 0 => c.c0
  | 1 => c.c1
  | 2 => c.c2
  | 3 => c.c3
  | _ => 0

/-- `cells[k] <- m` (R9). -/
def Cells.set (c : Cells) (k : Nat) (m : Mask) : Cells :=
  match k with
  | 0 => { c with c0 := m }
  | 1 => { c with c1 := m }
  | 2 => { c with c2 := m }
  | 3 => { c with c3 := m }
  | _ => c

/-- The four cells in order. -/
def Cells.toList (c : Cells) : List Mask := [c.c0, c.c1, c.c2, c.c3]

/-! ## Responses and errors -/

/-- `respond(code, data)` (R10, 30_encoding.md R54). -/
def respond (code : BitVec 4) (data : BitVec 28) (s : State) : State :=
  { s with resp := code ++ data, respValid := true }

/-- `respond(OK, data)`. -/
def respondOk (data : BitVec 28) (s : State) : State := respond 0x0 data s

/-- The error kinds a command can meet at run time (60_exceptions.md R109). -/
inductive ErrorKind where
  /-- BusTransactionError, with the stage of the failing transaction and the bus's code (R110). -/
  | busTransaction (stage : BitVec 2) (e : BitVec 24)
  /-- OverlongText (R112). -/
  | overlongText
  /-- NotReady (R114). -/
  | notReady
  /-- IllegalCommand (R115). -/
  | illegalCommand
deriving DecidableEq, Repr

/-- The response code of an error (30_encoding.md R54). -/
def errorCode (k : ErrorKind) : BitVec 4 :=
  match k with
  | .busTransaction _ _ => 0x1
  | .overlongText => 0x2
  | .notReady => 0x3
  | .illegalCommand => 0x4

/-- The response data of an error (R54): `{stage, 2'b00, zext_24(e)}` for a bus error, else 0. -/
def errorData (k : ErrorKind) : BitVec 28 :=
  match k with
  | .busTransaction stage e => stage ++ 0#2 ++ e
  | .overlongText => 0
  | .notReady => 0
  | .illegalCommand => 0

/-- Taking an error (R10, R108): the response word is the whole record of it, and nothing else changes. The state changes a
rule names beside it stand in the rule. -/
def raise (k : ErrorKind) (s : State) : State := respond (errorCode k) (errorData k) s

/-! ## The encoder's registers -/

/-- `EncClear()` (42_text_encoder.md R86). -/
def encClear (s : State) : State :=
  { s with cells := Cells.zero, ncells := 0, pend := false, pmask := 0x0000, ovf := false }

/-- `Commit(m)` (42_text_encoder.md R87). -/
def commit (m : Mask) (s : State) : State :=
  if s.ncells < ncellsMax then { s with cells := s.cells.set s.ncells.toNat m, ncells := s.ncells + 1 }
  else { s with ovf := true }

/-- Commit the pending character undecorated, if there is one, and leave none pending (R89, R95). -/
def flushPending (s : State) : State :=
  if s.pend then { commit s.pmask s with pend := false, pmask := 0x0000 } else s

/-- A text command outside `READY`: the encoder is cleared and the answer is NOT_READY (60_exceptions.md R114). -/
def notReady (s : State) : State := raise .notReady (encClear s)

/-! ## The bus -/

/-- The outstanding bus transaction, a function of the state (20_memory.md R32). -/
def outstanding (s : State) : Option Transaction :=
  match s.st with
  | .initOsc => some ⟨.cmd1, s.addr, [cmdOsc]⟩
  | .initDisp => some ⟨.cmd1, s.addr, [cmdDisp]⟩
  | .initBrt => some ⟨.cmd1, s.addr, [cmdBrightness]⟩
  | .frameTx => some ⟨.raw, s.addr, s.txbuf.toList⟩
  | .uninit | .ready | .failed | .code7 => none

/-- The opcode-table row of the outstanding transaction (R32, 30_encoding.md R56). -/
def outstandingInstr (s : State) : Option Instr :=
  match s.st with
  | .initOsc => some .busOscOn
  | .initDisp => some .busDispOn
  | .initBrt => some .busBrightness
  | .frameTx => some (.busFrame s.txbuf)
  | .uninit | .ready | .failed | .code7 => none

/-- The bus transactions issued so far, in order (00_scope.md R8): those that have ended, then the outstanding one, which has
received no answer. -/
def State.issued (s : State) : List BusRecord :=
  match outstanding s with
  | some tx => s.busLog ++ [⟨tx, none⟩]
  | none => s.busLog

/-- An answer of the build's bus (00_scope.md R10, 30_encoding.md R55): an error code has `BUS_ERR_W` bits. -/
def BusAnswer.fits (b : Build) (r : BusAnswer) : Bool :=
  match r with
  | .ok => true
  | .err e => decide (e.toNat < 2 ^ b.busErrWidth)

/-- What the chip has been told once a transaction is answered `OK` (60_exceptions.md R123). Frame byte `1+j` goes to RAM
byte `j` (20_memory.md R33). -/
def Chip.told (c : Chip) (bytes : List Byte) : Chip :=
  match bytes with
  | [b] =>
    if b = cmdOsc then { c with oscOn := some true }
    else if b = cmdDisp then { c with dispOn := some true, blinkOff := some true }
    else if b = cmdBrightness then { c with brightness := some brightnessLevel }
    else c
  | _ :: data => { c with ram := c.ram.writeBytes 0 data }
  | [] => c

/-- What stays known of the chip after a transaction that failed or was cut by reset: every field it may have touched is
unknown (R111, R123, 70_reset_and_hazards.md R129). -/
def Chip.mayHaveTold (c : Chip) (bytes : List Byte) : Chip :=
  match bytes with
  | [b] =>
    if b = cmdOsc then { c with oscOn := none }
    else if b = cmdDisp then { c with dispOn := none, blinkOff := none }
    else if b = cmdBrightness then { c with brightness := none }
    else c
  | _ :: data => { c with ram := c.ram.forgetBytes 0 data.length }
  | [] => c

/-- The chip after an answer. -/
def Chip.answered (c : Chip) (bytes : List Byte) (r : BusAnswer) : Chip :=
  match r with
  | .ok => c.told bytes
  | .err _ => c.mayHaveTold bytes

/-- The outstanding transaction ends with the answer `r`: it joins the observed list (00_scope.md R8) and the chip shadow
follows (R123). There is one shadow, whatever the address: R123's updates hold for every `a`, and what was known stays known
when INIT latches another address (DESIGN CHOICE, log entry 26). `rest` is what the surroundings do after it. -/
def endTransaction (r : BusAnswer) (rest : List Input) (s : State) : State :=
  match outstanding s with
  | some tx => { s with inputs := rest, busLog := s.busLog ++ [⟨tx, some r⟩], chip := s.chip.answered tx.bytes r }
  | none => { s with inputs := rest }

/-- The step in which the bus answers a transaction (41_init_fsm.md section 3). `here` says that the transaction is the
outstanding one; `k` is what the rule does on the answer. Where the answer has not come, the busy state lasts (R32). A code
wider than `BUS_ERR_W` is refused (R4, R55). -/
def onAnswer (here : Bool) (k : BusAnswer → State → State) (s : State) : Host.Outcome State Fault Refusal :=
  if here then
    match s.inputs with
    | .answer r :: rest =>
      if r.fits s.build then .next (k r (endTransaction r rest s)) else .refused .wideErrorCode
    | _ => .next s
  else .refused .notOutstanding

/-! ## The host -/

/-- The host takes the waiting response (44_control.md R101): `resp` keeps its value. A word no rule produces is a fault
(U17). With no response waiting the host has no such move (R106), and it is refused (R4, log entry 25). -/
def takeResponse (s : State) : Host.Outcome State Fault Refusal :=
  if !s.respValid then .refused .noResponseToTake
  else if respCode s.resp ≤ errorCode .illegalCommand then
    .next { s with respValid := false, respLog := s.respLog ++ [s.resp] }
  else .fault (.unknownResponseCode (respCode s.resp))

/-- Reset (70_reset_and_hazards.md R127): every register takes its reset value. An outstanding transaction is abandoned, and
the chip may have got any part of it (R129). A waiting response is lost. The configuration, the words the host still
offers and what has been observed are not registers and stay (log entry 19). -/
def resetBlock (s : State) : State :=
  { encClear s with
    st := .uninit, addr := 0x00, mapSel := false, txbuf := Frame.zero, respValid := false, resp := 0x00000000
    busLog := match outstanding s with
      | some tx => s.busLog ++ [⟨tx, none⟩]
      | none => s.busLog
    chip := match outstanding s with
      | some tx => s.chip.mayHaveTold tx.bytes
      | none => s.chip }

end Sys2Proof.Machine
end

