-- ==== Sys2Proof/Machine/Control.lean ====
section
/-! DEFINITION. The commands with no counterpart in the source (44_control.md): NOP, STATUS, and the reserved words. -/

namespace Sys2Proof.Machine

/-- NOP (R104). -/
def execNop (s : State) : Host.Outcome State Fault Refusal := .next (respondOk 0 s)

/-- STATUS (R105). -/
def execStatus (s : State) : Host.Outcome State Fault Refusal := .next (respondOk (statusData s) s)

/-- RESERVED (30_encoding.md R52, 60_exceptions.md R115). -/
def execReserved (s : State) : Host.Outcome State Fault Refusal := .next (raise .illegalCommand s)

end Sys2Proof.Machine
end

