-- ==== Sys2Proof/Machine/Encoder.lean ====
section
/-! DEFINITION. The text encoder (42_text_encoder.md): the source's encoding of a whole text, and CHAR, MASK, CLEAR. -/

namespace Sys2Proof.Machine

/-! ## The encoding of a text as a pure function -/

/-- The cells the loop of `encode(t)` builds before its length check (R82); `T` is the LUT. -/
def encodeCells (T : CodePoint → Mask) : List CodePoint → List Mask
  | [] => []
  | [c] => [T c]
  | c :: d :: rest => if d = period then decorate (T c) :: encodeCells T rest else T c :: encodeCells T (d :: rest)

/-- `encode(t)` (R82): the cells of a text, or `none` for OverlongText. -/
def encodeText (T : CodePoint → Mask) (t : List CodePoint) : Option (List Mask) :=
  if 4 < (encodeCells T t).length then none else some (encodeCells T t)

/-- The committed cells `cells[0..ncells-1]` (10_state.md R17). -/
def committed (s : State) : List Mask := s.cells.toList.take s.ncells.toNat

/-- The committed cells followed by the pending mask, if any (R91, 43_frame_writer.md R98). -/
def encoderContents (s : State) : List Mask := committed s ++ (if s.pend then [s.pmask] else [])

/-- The pseudo-command `TEXT "<s>"` (30_encoding.md R61). -/
def textCommands (t : List CodePoint) : List Instr := t.map .char ++ [.showText]

/-- The pseudo-command `SHOWMASKS m0, ..., m(k-1)` (30_encoding.md R61). -/
def showMasksCommands (ms : List Mask) : List Instr := ms.map .mask ++ [.showText]

/-! ## The commands -/

/-- CHAR (R88): feed one code point of the text to the encoder. -/
def execChar (cp : CodePoint) (s : State) : Host.Outcome State Fault Refusal :=
  if s.st ≠ .ready then .next (notReady s)
  else if s.pend ∧ cp = period then
    .next (respondOk 0 { commit (decorate s.pmask) s with pend := false, pmask := 0x0000 })
  else
    let t := if s.pend then commit s.pmask s else s
    .next (respondOk 0 { t with pmask := lutRead t cp, pend := true })

/-- MASK (R89): append one raw mask as a cell. -/
def execMask (m : Mask) (s : State) : Host.Outcome State Fault Refusal :=
  if s.st ≠ .ready then .next (notReady s)
  else .next (respondOk 0 (commit m (flushPending s)))

/-- CLEAR (R90): discard any partial text. -/
def execClear (s : State) : Host.Outcome State Fault Refusal := .next (respondOk 0 (encClear s))

end Sys2Proof.Machine
end

