-- ==== Sys2Proof/Machine/FrameWriter.lean ====
section
/-! DEFINITION. The frame writer (43_frame_writer.md): the packer, SHOW, and the answer to the frame write. -/

namespace Sys2Proof.Machine

/-- `m[7:0]` (20_memory.md R34). -/
def lowByte (m : Mask) : Byte := m.extractLsb' 0 8

/-- `m[15:8]` (20_memory.md R34). -/
def highByte (m : Mask) : Byte := m.extractLsb' 8 8

/-- The frame of four masks, low byte first (R93, 30_encoding.md R57). -/
def packMasks (m0 m1 m2 m3 : Mask) : Frame :=
  ⟨ramCmd, lowByte m0, highByte m0, lowByte m1, highByte m1, lowByte m2, highByte m2, lowByte m3, highByte m3⟩

/-- `pack(c, n)` (R93): a slot the input did not supply is 0x0000. -/
def pack (c : Cells) (n : Nat) : Frame :=
  let slot (k : Nat) : Mask := if k < n then c.get k else 0x0000
  packMasks (slot 0) (slot 1) (slot 2) (slot 3)

/-- `pack(L)` for a list of at most four masks (R93). -/
def packList (l : List Mask) : Frame := packMasks (l.getD 0 0) (l.getD 1 0) (l.getD 2 0) (l.getD 3 0)

/-- SHOW (R95): end the text, check its length, pack the frame and start the frame write. -/
def execShowText (s : State) : Host.Outcome State Fault Refusal :=
  if s.st ≠ .ready then .next (notReady s)
  else
    let t := flushPending s
    if t.ovf then .next (raise .overlongText (encClear t))
    else .next { encClear t with txbuf := pack t.cells t.ncells.toNat, st := .frameTx }

/-- What the answer to `(RAW, addr, txbuf[0..8])` does (R96): the Display stays usable either way. -/
def frameAnswered (r : BusAnswer) (s : State) : State :=
  match r with
  | .ok => respondOk 0 { s with st := .ready }
  | .err e => raise (.busTransaction 3 e) { s with st := .ready }

/-- BUS_FRAME (R96): the bus answers the frame write. -/
def execBusFrame (f : Frame) (s : State) : Host.Outcome State Fault Refusal :=
  onAnswer (s.st == .frameTx && s.txbuf == f) frameAnswered s

end Sys2Proof.Machine
end

