-- ==== Sys2Proof/Machine/Init.lean ====
section
/-! DEFINITION. The initialization FSM (41_init_fsm.md): INIT and the answers to the three bring-up writes. -/

namespace Sys2Proof.Machine

/-- INIT (R74): latch the address and the map selection, clear the encoder, start the bring-up. -/
def execInit (addr7 : DevAddr) (custom : Bool) (s : State) : Host.Outcome State Fault Refusal :=
  if custom && !s.build.hasCustomMap then .next (raise .illegalCommand s)
  else .next { encClear s with addr := addr7, mapSel := custom, st := .initOsc }

/-- A bring-up write failed: the sequence is aborted (R75 to R78). -/
def bringUpFailed (stage : BitVec 2) (e : BitVec 24) (s : State) : State :=
  raise (.busTransaction stage e) { s with st := .failed }

/-- What the answer to `(CMD1, addr, [0x21])` does (R75). -/
def oscAnswered (r : BusAnswer) (s : State) : State :=
  match r with
  | .ok => { s with st := .initDisp }
  | .err e => bringUpFailed 0 e s

/-- What the answer to `(CMD1, addr, [0x81])` does (R76). -/
def dispAnswered (r : BusAnswer) (s : State) : State :=
  match r with
  | .ok => { s with st := .initBrt }
  | .err e => bringUpFailed 1 e s

/-- What the answer to `(CMD1, addr, [0xEF])` does (R77). -/
def brtAnswered (r : BusAnswer) (s : State) : State :=
  match r with
  | .ok => respondOk 0 { s with st := .ready }
  | .err e => bringUpFailed 2 e s

/-- BUS_OSC_ON (R75): the bus answers the write of 0x21. -/
def execBusOscOn (s : State) : Host.Outcome State Fault Refusal := onAnswer (s.st == .initOsc) oscAnswered s

/-- BUS_DISP_ON (R76): the bus answers the write of 0x81. -/
def execBusDispOn (s : State) : Host.Outcome State Fault Refusal := onAnswer (s.st == .initDisp) dispAnswered s

/-- BUS_BRIGHTNESS (R77): the bus answers the write of 0xEF. -/
def execBusBrightness (s : State) : Host.Outcome State Fault Refusal := onAnswer (s.st == .initBrt) brtAnswered s

end Sys2Proof.Machine
end

