-- ==== Sys2Proof/Machine/Lut.lean ====
section
/-! DEFINITION. The segment encoding table (40_lut.md): the literal decoder that builds it, and LOOKUP. Reading the table is
in Machine/Operands.lean. -/

namespace Sys2Proof.Machine

/-- Why a configuration is refused and no block is built (R69, R113). -/
inductive BuildError where
  /-- A literal is not 16 characters, each '0' or '1' (R68). -/
  | invalidCharacterLiteral
  /-- A custom map's key is no Unicode code point, or stands twice (R66, log entry 18). -/
  | invalidKey
deriving DecidableEq, Repr

/-- The number a string of binary digits stands for, the first character the most significant. -/
def litValue : List Char → Nat
  | [] => 0
  | c :: cs => (if c = '1' then 2 ^ cs.length else 0) + litValue cs

/-- `LitDecode(s)` (R68, 30_encoding.md R59). -/
def litDecode (s : List Char) : Except BuildError Mask :=
  if s.length ≠ 16 then .error .invalidCharacterLiteral
  else if s.any (fun c => c != '0' && c != '1') then .error .invalidCharacterLiteral
  else .ok (BitVec.ofNat 16 (litValue s))

/-- `LitEncode(v)` (R70): character `j` is bit `15-j`. -/
def litEncode (v : Mask) : List Char :=
  (List.range 16).map (fun j => if v.getLsbD (15 - j) then '1' else '0')

/-- The masks of a list of literals, or the first error. -/
def decodeLiterals : List (List Char) → Except BuildError (List Mask)
  | [] => .ok []
  | l :: ls =>
    match litDecode l with
    | .error e => .error e
    | .ok m =>
      match decodeLiterals ls with
      | .error e => .error e
      | .ok ms => .ok (m :: ms)

/-- The keys of a custom map are Unicode code points, each standing once (R66). -/
def keysValid (keys : List CodePoint) : Bool :=
  keys.all (fun c => !decide (lastCodePoint < c)) && decide keys.Nodup

/-- Build a configuration from the literals of its tables (R66, R68, R69): the literals of 0x20..0x7E of the default map, the
keys and literals of the custom map if there is one, and `BUS_ERR_W` - 1. A configuration with an invalid entry is refused.
Every literal is checked before a key: R69's error is reported wherever R69 names one, and `invalidKey`, the model's own
error, only where every literal is valid (DESIGN CHOICE, log entry 18). -/
def buildFromLiterals (default : List (List Char)) (custom : Option (List (CodePoint × List Char))) (busErrIndex : Fin 24) :
    Except BuildError Build :=
  match decodeLiterals default with
  | .error e => .error e
  | .ok table =>
    match custom with
    | none => .ok ⟨table, none, busErrIndex⟩
    | some entries =>
      match decodeLiterals (entries.map (·.2)) with
      | .error e => .error e
      | .ok masks =>
        if keysValid (entries.map (·.1)) then .ok ⟨table, some ((entries.map (·.1)).zip masks), busErrIndex⟩
        else .error .invalidKey

/-- LOOKUP (R71): the bound map's mask for one code point. -/
def execLookup (cp : CodePoint) (s : State) : Host.Outcome State Fault Refusal :=
  .next (respondOk ((lutRead s cp).setWidth 28) s)

end Sys2Proof.Machine
end

