-- ==== Sys2Proof/Machine/Dispatch.lean ====
section
/-! DEFINITION. One arm per constructor of Instr, each one direct call of its meaning. -/

namespace Sys2Proof.Machine

def exec (i : Instr) (s : State) : Host.Outcome State Fault Refusal :=
  match i with
  | .nop => Sys2Proof.Machine.execNop s
  | .init addr7 custom => Sys2Proof.Machine.execInit addr7 custom s
  | .char cp => Sys2Proof.Machine.execChar cp s
  | .mask m => Sys2Proof.Machine.execMask m s
  | .showText => Sys2Proof.Machine.execShowText s
  | .lookup cp => Sys2Proof.Machine.execLookup cp s
  | .clear => Sys2Proof.Machine.execClear s
  | .status => Sys2Proof.Machine.execStatus s
  | .reserved => Sys2Proof.Machine.execReserved s
  | .busOscOn => Sys2Proof.Machine.execBusOscOn s
  | .busDispOn => Sys2Proof.Machine.execBusDispOn s
  | .busBrightness => Sys2Proof.Machine.execBusBrightness s
  | .busFrame f => Sys2Proof.Machine.execBusFrame f s

end Sys2Proof.Machine
end

