-- ==== Sys2Proof/Machine/Port.lean ====
section
/-! DEFINITION. The command port and the order in which the surroundings move (00_scope.md R3, R7; 44_control.md R100, R101,
R106): what the next step is. -/

namespace Sys2Proof.Machine

/-- What the next step does. -/
inductive Move where
  /-- Run an instruction from a state: an accepted command, or the answered transaction. -/
  | run (i : Instr) (s : State)
  /-- A step that runs no instruction. -/
  | done (o : Host.Outcome State Fault Refusal)
deriving Repr

/-- The port is ready (R100): the word that has waited longest is accepted, else a word offered now. A waiting word is accepted
before any move but a reset, also before an answer that stands first, a late one to a transaction cut by reset among them: the
answer is kept, and answers the transaction the word issues, if it issues one (DESIGN CHOICE, log entry 27). With no word
waiting, a take finds no response (log entry 25), and the block takes no answer (R127): one that comes is used up without
effect (log entry 5). -/
def moveReady (s : State) : Move :=
  match s.waiting, s.inputs with
  | w :: ws, _ => .run (decodeCommand s.build.hasCustomMap w) { s with waiting := ws }
  | [], .offer w :: rest => .run (decodeCommand s.build.hasCustomMap w) { s with inputs := rest }
  | [], .take :: rest => .done (takeResponse { s with inputs := rest })
  | [], .answer _ :: rest => .done (.next { s with inputs := rest })
  | [], .reset :: rest => .done (.next (resetBlock { s with inputs := rest }))
  | [], [] => .done (.next s)

/-- The port is not ready (R100): an offered word waits. The bus answers the outstanding transaction, and the host takes the
waiting response; with nothing outstanding the block takes no answer (R127), which is used up without effect (log entry 5).
An answer is to whatever transaction is outstanding, though one cut by reset may have been meant (DESIGN CHOICE, log
entry 27). -/
def moveNotReady (s : State) : Move :=
  match s.inputs with
  | .offer w :: rest => .done (.next { s with inputs := rest, waiting := s.waiting ++ [w] })
  | .take :: rest => .done (takeResponse { s with inputs := rest })
  | .answer _ :: rest =>
    match outstandingInstr s with
    | some i => .run i s
    | none => .done (.next { s with inputs := rest })
  | .reset :: rest => .done (.next (resetBlock { s with inputs := rest }))
  | [] => .done (.next s)

/-- The next step. Reset may come in any state (R106, R127). A model that stands in `st = 7` is outside the spec (U18). With
no move left to make, the block waits as it is (R122, log entry 6). -/
def nextMove (s : State) : Move :=
  match s.inputs with
  | .reset :: rest => .done (.next (resetBlock { s with inputs := rest }))
  | .offer _ :: _ | .take :: _ | .answer _ :: _ | [] =>
    if s.st = .code7 then .done (.refused .unreachableController)
    else if s.portReady then moveReady s
    else moveNotReady s

/-- The moves with no reset standing first. -/
def dropResets : List Input → List Input
  | .reset :: rest => dropResets rest
  | ins => ins

/-- `s` with the command word `w` the next to be accepted: the port ready, no reset coming first (log entry 4). -/
def placeCommand (s : State) (w : Word) : State :=
  { s with
    waiting := w :: s.waiting, inputs := dropResets s.inputs, respValid := false
    st := if s.st.idle then s.st else .uninit }

/-- `s` with the transaction of a bus row outstanding and answered `OK` next (log entry 4). -/
def placeTransaction (s : State) (i : Instr) : State :=
  let t : State := { s with inputs := .answer .ok :: s.inputs }
  match i with
  | .busOscOn => { t with st := .initOsc }
  | .busDispOn => { t with st := .initDisp }
  | .busBrightness => { t with st := .initBrt }
  | .busFrame f => { t with st := .frameTx, txbuf := f }
  | .nop | .init _ _ | .char _ | .mask _ | .showText | .lookup _ | .clear | .status | .reserved => s

/-- `s` with the opcode-table row whose bits are `w` standing where the next step takes its instruction from. -/
def placeTableWord (s : State) (nbits w : Nat) : State :=
  if nbits = 32 then placeCommand s (BitVec.ofNat 32 w)
  else
    match decodeWire (tableBytes nbits w) with
    | .ok i => placeTransaction s i
    | .error _ => s

end Sys2Proof.Machine
end

