-- ==== Sys2Proof/Machine/Step.lean ====
section
/-! DEFINITION. One step: the acceptance of one host command, the answer to one bus transaction, the host's consumption of
one response (00_scope.md R3), or a move of the surroundings that runs no instruction (Machine/Port.lean). -/

namespace Sys2Proof.Machine

/-- One step of the machine. -/
def step (s : State) : Host.Outcome State Fault Refusal :=
  match nextMove s with
  | .run i t => exec i t
  | .done o => o

/-- `s` with an opcode-table row's instruction standing where the next step takes its instruction from. -/
def State.withFetchWord (s : State) (nbits w : Nat) : State := placeTableWord s nbits w

end Sys2Proof.Machine
end

