-- ==== Sys2Proof/Safety.lean ====
section
/-! DEFINITION. What counts as a legal state (10_state.md section 7 and the statements of the spec beside it), and the words
the statements are written in. -/

namespace Sys2Proof

open Machine

/-- The encoder is clear (10_state.md R29): no cell, no pending character, no overflow. -/
structure EncoderClear (s : State) : Prop where
  cells : s.cells = Cells.zero
  ncells : s.ncells = 0
  pend : s.pend = false
  pmask : s.pmask = 0
  ovf : s.ovf = false

/-- One of the four byte patterns the block sends, with its kind (30_encoding.md R55, R56). -/
def Machine.Transaction.Sendable (tx : Transaction) : Prop :=
  (tx.kind = .cmd1 ∧ (tx.bytes = [0x21] ∨ tx.bytes = [0x81] ∨ tx.bytes = [0xEF])) ∨
    (tx.kind = .raw ∧ tx.bytes.length = 9 ∧ tx.bytes.head? = some 0x00)

/-- The invariants of the block. They hold at reset and every step keeps them; no statement assumes them without saying so. -/
structure Legal (s : State) : Prop where
  /-- R26. -/
  st : s.st ≠ .code7
  /-- R27. -/
  ncells : s.ncells ≤ 4
  /-- R27: a cell that is not committed holds 0x0000. -/
  freeCells : ∀ k, s.ncells.toNat ≤ k → k ≤ 3 → s.cells.get k = 0
  /-- R28. -/
  pmask : s.pend = false → s.pmask = 0
  /-- R28. -/
  ovf : s.ovf = true → s.ncells = 4
  /-- R29. -/
  clear : s.st ≠ .ready → EncoderClear s
  /-- R101: no response waits while a transaction is outstanding. -/
  respFree : s.st.busy = true → s.respValid = false
  /-- R16: `map_sel = 1` implies `HAS_CUSTOM_MAP`. -/
  mapSel : s.mapSel = true → s.build.hasCustomMap = true
  /-- R57: `txbuf` starts with the register-select byte. -/
  txbuf : s.txbuf.b0 = 0x00
  /-- R54: the response codes 0x5 to 0xF are never produced. -/
  resp : respCode s.resp ≤ 4
  /-- R56: every transaction on the bus is one of the four patterns. -/
  busLog : ∀ e ∈ s.busLog, e.tx.Sendable
  /-- R54: a waiting or last BUS_ERROR word carries a `BUS_ERR_W`-bit code, zero-extended, and zero beside the stage. -/
  errorBits : respCode s.resp = 0x1 → (respData s.resp).extractLsb' 24 2 = 0 ∧
    ((respData s.resp).extractLsb' 0 24).toNat < 2 ^ s.build.busErrWidth
  /-- R55: every answer on the bus is one the bus can give. -/
  answers : ∀ e ∈ s.busLog, ∀ r, e.answer = some r → r.fits s.build = true
  /-- The known bytes of the chip's RAM stand in canonical form. -/
  ram : s.chip.ram.wf = true

/-- The instruction whose acceptance the next step is (44_control.md R100): the longest-waiting word, whatever move but a reset
stands first (log entry 27), else the word offered now. -/
def nextCommand (s : State) : Option Instr :=
  match s.inputs with
  | .reset :: _ => none
  | _ =>
    if s.portReady then
      match s.waiting, s.inputs with
      | w :: _, _ => some (decodeCommand s.build.hasCustomMap w)
      | [], .offer w :: _ => some (decodeCommand s.build.hasCustomMap w)
      | [], _ => none
    else none

/-- The next move is a reset. -/
def resetNext (s : State) : Bool :=
  match s.inputs with
  | .reset :: _ => true
  | _ => false

/-- The next move is the bus's answer. -/
def answerNext (s : State) : Bool :=
  match s.inputs with
  | .answer _ :: _ => true
  | _ => false

/-- The command words the host has offered or still will, oldest first. -/
def pendingWords (s : State) : List Word :=
  s.waiting ++ s.inputs.filterMap (fun m => match m with
    | .offer w => some w
    | .take | .answer _ | .reset => none)

/-- The surroundings only offer words: the bus does not answer, there is no reset, and there is no take, which needs a
response waiting. -/
def onlyOffers (s : State) : Bool :=
  s.inputs.all (fun m => match m with
    | .offer _ => true
    | .take | .answer _ | .reset => false)

/-- No reset is to come. -/
def noResets (s : State) : Bool :=
  s.inputs.all (fun m => match m with
    | .offer _ | .take | .answer _ => true
    | .reset => false)

/-- The next move is one the spec gives the surroundings (44_control.md R106, 30_encoding.md R55): a take finds a response or
waits behind a word to be accepted, and an answer to the outstanding transaction has a `BUS_ERR_W`-bit code. -/
def moveAllowed (s : State) : Bool :=
  match s.inputs with
  | .take :: _ => s.respValid || (s.portReady && !s.waiting.isEmpty)
  | .answer r :: _ => !s.st.busy || r.fits s.build
  | .offer _ :: _ | .reset :: _ | [] => true

/-- The responses the block still owes: one for each word to be accepted, one for a transaction outstanding, and the one that
waits (44_control.md R102). -/
def owed (s : State) : Nat := (pendingWords s).length + s.st.busy.toNat + s.respValid.toNat

/-- The waiting word `w` is accepted as the instruction `i` (44_control.md R100): in an idle state with no response waiting,
and no reset coming first, the step is the meaning of `i` where the word no longer waits. -/
def AcceptedAs (w : Word) (i : Instr) (s : State) : Prop :=
  s.st.idle = true → s.respValid = false → resetNext s = false →
    ∀ ws, s.waiting = w :: ws → step s = exec i { s with waiting := ws }

/-- A state with the response word `w` given and nothing else changed (30_encoding.md R54). -/
def Machine.State.responding (s : State) (w : Word) : State := { s with resp := w, respValid := true }

/-- The meanings of a list of instructions, one after the other. -/
def feed : List Instr → State → Host.Outcome State Fault Refusal
  | [], s => .next s
  | i :: is, s =>
    match exec i s with
    | .next t => feed is t
    | .fault r => .fault r
    | .refused r => .refused r

/-- A run has ended (44_control.md R107): every offered command accepted, every response taken, no transaction
outstanding, and no offer or take to come. It looks at the state alone: it holds too where a reset lost an accepted command's
response, and where a reset is still to come. R107 says nothing of a run cut by reset, and that such a run counts as ended once
its state is like an ended one's is the model's (DESIGN CHOICE, log entry 28). -/
def runEnded (s : State) : Bool :=
  s.st.idle && !s.respValid && s.waiting.isEmpty &&
    s.inputs.all (fun m => match m with
      | .offer _ | .take => false
      | .answer _ | .reset => true)

/-- The observation of a run (00_scope.md R8): the transactions issued, with the answers received, and the responses taken. -/
def observation (s : State) : List BusRecord × List Word := (s.issued, s.respLog)

/-- `n` steps of the machine, ending at the first fault or refusal. -/
def runSteps : Nat → State → Host.Outcome State Fault Refusal
  | 0, s => .next s
  | n + 1, s =>
    match step s with
    | .next t => runSteps n t
    | .fault r => .fault r
    | .refused r => .refused r

end Sys2Proof
end

