-- ==== Sys2Proof/Certificates/Slice0/Obligations.lean ====
section
/-! DEFINITION. The statements for the provers. Each docstring names the rule of spec/ it formalises. -/

open Sys2Proof Sys2Proof.Machine

/-! ## Encodings -/

/-- R48, R49, R56, R57: for every well-formed instruction, decoding its code gives it back. -/
def Obligations.DecodingAnEncodedInstructionGivesItBack : Prop :=
  ∀ (hasCustomMap : Bool) (i : Instr), i.wf hasCustomMap = true → decode hasCustomMap (encode i) = .ok i

/-- 95_test_vectors.md W1 to W19 and R56: a few words of the spec decode to the instructions they stand for. -/
def Obligations.SpecWordsDecodeToTheirInstructions : Prop :=
  decodeCommand true 0x00000000 = .nop ∧ decodeCommand true 0x100000F0 = .init 0x70 true ∧
  decodeCommand false 0x100000F0 = .reserved ∧ decodeCommand true 0x1FFFFF7F = .init 0x7F false ∧
  decodeCommand true 0x2000002E = .char 0x2E ∧ decodeCommand true 0x3FFF1234 = .mask 0x1234 ∧
  decodeCommand true 0x40000000 = .showText ∧ decodeCommand true 0x5FE00042 = .lookup 0x42 ∧
  decodeCommand true 0x60000000 = .clear ∧ decodeCommand true 0x70000000 = .status ∧
  decodeCommand true 0xFFFFFFFF = .reserved ∧ decodeWire [0x21] = .ok .busOscOn ∧ decodeWire [0x81] = .ok .busDispOn ∧
  decodeWire [0xEF] = .ok .busBrightness ∧
  decodeWire [0x00, 0x34, 0x12, 0xCD, 0xAB, 0x00, 0x00, 0x00, 0x00] =
    .ok (.busFrame ⟨0x00, 0x34, 0x12, 0xCD, 0xAB, 0x00, 0x00, 0x00, 0x00⟩)

/-- R51: a command with nonzero ignored bits decodes, and so behaves in the step that accepts it, exactly like the same
command with other values of those bits; `0x2FE00041` is `CHAR 'A'`. -/
def Obligations.IgnoredBitsDoNotMatter : Prop :=
  (∀ (h : Bool) (w x : Word), decodeCommand h (w ^^^ (x &&& ignoredBits w)) = decodeCommand h w) ∧
  (∀ (s : State) (w x : Word), s.portReady = true → resetNext s = false →
    step { s with waiting := (w ^^^ (x &&& ignoredBits w)) :: s.waiting } = step { s with waiting := w :: s.waiting }) ∧
  (∀ h : Bool, decodeCommand h 0x2FE00041 = .char 0x41)

/-- R103: the decoder's map, over every word, and what RESERVED does. -/
def Obligations.DecoderMapsEveryOpcode : Prop :=
  (∀ (h : Bool) (w : Word),
    (opField w = 0x0 → decodeCommand h w = .nop) ∧
    (opField w = 0x1 → w.getLsbD 7 = true ∧ h = false → decodeCommand h w = .reserved) ∧
    (opField w = 0x1 → ¬(w.getLsbD 7 = true ∧ h = false) →
      decodeCommand h w = .init (w.extractLsb' 0 7) (w.getLsbD 7)) ∧
    (opField w = 0x2 → decodeCommand h w = .char (w.extractLsb' 0 21)) ∧
    (opField w = 0x3 → decodeCommand h w = .mask (w.extractLsb' 0 16)) ∧
    (opField w = 0x4 → decodeCommand h w = .showText) ∧
    (opField w = 0x5 → decodeCommand h w = .lookup (w.extractLsb' 0 21)) ∧
    (opField w = 0x6 → decodeCommand h w = .clear) ∧
    (opField w = 0x7 → decodeCommand h w = .status) ∧
    (0x8 ≤ opField w → decodeCommand h w = .reserved)) ∧
  (∀ s : State, exec .reserved s = .next (s.responding 0x40000000))

/-- R56, R57: a byte string on the bus that decodes is one of the four patterns, and is the code of what it decodes to. -/
def Obligations.OnlyTheFourWirePatternsDecode : Prop :=
  ∀ (bytes : List Byte) (i : Instr), decodeWire bytes = .ok i →
    encode i = .wire bytes ∧
      (bytes = [0x21] ∨ bytes = [0x81] ∨ bytes = [0xEF] ∨ (bytes.length = 9 ∧ bytes.head? = some 0x00))

/-! ## Steps -/

/-- R100: a ready port accepts the word that waits or is offered, and the step is the meaning of the decoded command. That a
waiting word goes before any move but a reset, an answer that stands first too, is the model's choice (log entry 27). -/
def Obligations.StepRunsTheAcceptedCommand : Prop :=
  ∀ s : State, s.portReady = true → resetNext s = false →
    (∀ w ws, s.waiting = w :: ws →
      step s = exec (decodeCommand s.build.hasCustomMap w) { s with waiting := ws }) ∧
    (∀ w rest, s.waiting = [] → s.inputs = .offer w :: rest →
      step s = exec (decodeCommand s.build.hasCustomMap w) { s with inputs := rest })

/-- R32, R75, R76, R77, R96: the step in which the bus answers is the meaning of what the outstanding bytes decode to. -/
def Obligations.StepRunsTheAnsweredTransaction : Prop :=
  ∀ (s : State) (tx : Transaction) (i : Instr) (r : BusAnswer) (rest : List Input),
    outstanding s = some tx → decodeWire tx.bytes = .ok i → s.inputs = .answer r :: rest → step s = exec i s

/-- R100: a word offered while the port is not ready waits; it is neither lost nor answered. How the waiting word is held is
the model's choice (log entry 3). -/
def Obligations.OfferWaitsWhileThePortIsNotReady : Prop :=
  ∀ (s : State) (w : Word) (rest : List Input), s.st ≠ .code7 → s.portReady = false → s.inputs = .offer w :: rest →
    step s = .next { s with inputs := rest, waiting := s.waiting ++ [w] }

/-- R101: the host takes a waiting response; until then no step drops or overwrites it. The list the word joins is R8's (log entry 7). -/
def Obligations.ResponseWaitsUntilTaken : Prop :=
  (∀ (s : State) (rest : List Input), s.st ≠ .code7 → s.respValid = true → respCode s.resp ≤ 4 →
    s.inputs = .take :: rest →
    step s = .next { s with inputs := rest, respValid := false, respLog := s.respLog ++ [s.resp] }) ∧
  (∀ s t : State, Legal s → s.respValid = true → resetNext s = false → step s = .next t →
    t.resp = s.resp ∧
      ((t.respValid = true ∧ t.respLog = s.respLog) ∨ (t.respValid = false ∧ t.respLog = s.respLog ++ [s.resp])))

/-- R127: reset puts every register at its reset value, issues nothing, abandons the outstanding transaction, loses a waiting
response, accepts no command, and leaves the port accepting; an answer that comes afterwards is not taken. That such an answer
is used up and changes nothing is log entry 5, and that reset is taken in `st = 7` too is log entry 10: the model's choices. -/
def Obligations.ResetStepSetsEveryRegister : Prop :=
  ∀ (s : State) (rest : List Input), s.inputs = .reset :: rest →
    ∃ t, step s = .next t ∧ t.st = .uninit ∧ t.addr = 0x00 ∧ t.mapSel = false ∧ EncoderClear t ∧ t.txbuf = Frame.zero ∧
      t.respValid = false ∧ t.resp = 0x00000000 ∧ outstanding t = none ∧ nextCommand s = none ∧ t.portReady = true ∧
      (∀ r rest', rest = .answer r :: rest' → t.waiting = [] → step t = .next { t with inputs := rest' })

/-- R127, R129 and log entries 7, 8, 19 (the model's choices): what reset leaves of the surroundings, and what it records. -/
def Obligations.ResetStepKeepsTheSurroundings : Prop :=
  ∀ (s t : State) (rest : List Input), s.inputs = .reset :: rest → step s = .next t →
    t.build = s.build ∧ t.waiting = s.waiting ∧ t.inputs = rest ∧ t.respLog = s.respLog ∧
      (outstanding s = none → t.busLog = s.busLog ∧ t.chip = s.chip) ∧
      (∀ tx, outstanding s = some tx →
        t.busLog = s.busLog ++ [⟨tx, none⟩] ∧ t.chip = s.chip.mayHaveTold tx.bytes)

/-- R127 and 10_state.md section 1: the machine right after reset holds the values the spec gives. -/
def Obligations.ResetStateHoldsTheSpecValues : Prop :=
  State.reset.st = .uninit ∧ State.reset.addr = 0x00 ∧ State.reset.mapSel = false ∧ State.reset.cells = ⟨0, 0, 0, 0⟩ ∧
  State.reset.ncells = 0 ∧ State.reset.pend = false ∧ State.reset.pmask = 0x0000 ∧ State.reset.ovf = false ∧
  State.reset.txbuf = ⟨0, 0, 0, 0, 0, 0, 0, 0, 0⟩ ∧ State.reset.respValid = false ∧ State.reset.resp = 0x00000000

/-- R135: a bus that never answers keeps the block busy for ever, and until reset no command is accepted: after any number of
steps `st`, the outstanding transaction and the observation are as they were, and the next step accepts nothing. That a hang
is shown by a state that stays as it is, with a step that answers it, is the model's choice (log entry 6). -/
def Obligations.SilentBusKeepsTheBlockBusy : Prop :=
  ∀ (n : Nat) (s : State), Legal s → s.st.busy = true → onlyOffers s = true →
    ∃ t, runSteps n s = .next t ∧ t.st = s.st ∧ outstanding t = outstanding s ∧ observation t = observation s ∧
      nextCommand t = none

/-- U18 (log entry 10), U17 (log entry 11), R106 with R4 (log entry 25) and R55 with R4 (log entry 14): where the model stops,
and nowhere else. A step in `st = 7` with no reset is refused; so are a take with no response waiting, and an answer whose
code is wider than `BUS_ERR_W`; the take of a response word no rule produces is a fault. Every other step answers a next
state. -/
def Obligations.StepStopsOnlyOutsideTheSpec : Prop :=
  (∀ s : State, s.st = .code7 → resetNext s = false → step s = .refused .unreachableController) ∧
  (∀ (s : State) (rest : List Input), s.st ≠ .code7 → s.respValid = true → 4 < respCode s.resp →
    s.inputs = .take :: rest → step s = .fault (.unknownResponseCode (respCode s.resp))) ∧
  (∀ (s : State) (rest : List Input), s.st ≠ .code7 → s.respValid = false → (s.portReady = true → s.waiting = []) →
    s.inputs = .take :: rest → step s = .refused .noResponseToTake) ∧
  (∀ (s : State) (e : BitVec 24) (rest : List Input), s.st.busy = true → 2 ^ s.build.busErrWidth ≤ e.toNat →
    s.inputs = .answer (.err e) :: rest → step s = .refused .wideErrorCode) ∧
  (∀ s : State, (∃ t, step s = .next t) ∨ (s.st = .code7 ∧ resetNext s = false) ∨
    (∃ rest, s.st ≠ .code7 ∧ s.respValid = true ∧ 4 < respCode s.resp ∧ s.inputs = .take :: rest) ∨
    (∃ rest, s.st ≠ .code7 ∧ s.respValid = false ∧ (s.portReady = true → s.waiting = []) ∧ s.inputs = .take :: rest) ∨
    (∃ e rest, s.st.busy = true ∧ 2 ^ s.build.busErrWidth ≤ e.toNat ∧ s.inputs = .answer (.err e) :: rest))

/-! ## Shared operations of the rules -/

/-- R86: what the encoder's clear writes, and the rules that use it: after each of them the encoder is clear. -/
def Obligations.EncClearEmptiesTheEncoder : Prop :=
  (∀ s : State,
    encClear s = { s with cells := ⟨0, 0, 0, 0⟩, ncells := 0, pend := false, pmask := 0x0000, ovf := false }) ∧
  (∀ (s t : State) (a : DevAddr) (c : Bool), c = false ∨ s.build.hasCustomMap = true → exec (.init a c) s = .next t →
    EncoderClear t) ∧
  (∀ s t : State, exec .showText s = .next t ∨ exec .clear s = .next t ∨ t = resetBlock s → EncoderClear t) ∧
  (∀ (s t : State) (i : Instr), s.st ≠ .ready → (∃ cp, i = .char cp) ∨ (∃ m, i = .mask m) → exec i s = .next t →
    EncoderClear t)

/-- R87: a commit appends a cell, or drops the mask and sets the overflow; `ncells` never exceeds 4, so its increment does
not wrap; `ovf` once set stays set through every step that does not clear the encoder. -/
def Obligations.CommitAppendsOrOverflows : Prop :=
  ∀ (m : Mask) (s : State),
    (s.ncells < 4 → ∃ c : Cells, commit m s = { s with cells := c, ncells := s.ncells + 1 } ∧
      (s.ncells + 1).toNat = s.ncells.toNat + 1 ∧ c.get s.ncells.toNat = m ∧ ∀ k, k ≠ s.ncells.toNat → c.get k = s.cells.get k) ∧
    (¬ s.ncells < 4 → commit m s = { s with ovf := true }) ∧
    (s.ncells ≤ 4 → (commit m s).ncells ≤ 4) ∧ (s.ovf = true → (commit m s).ovf = true) ∧
    (∀ t, step s = .next t → s.ovf = true → t.ovf = true ∨ EncoderClear t)

/-- R13, R32: the idle and the busy states, and the outstanding transaction as a function of the state; there is one exactly in
a busy state, and the state lasts until the answer (or reset). Its bytes are the code of its opcode-table row. -/
def Obligations.OutstandingTransactionIsAFunctionOfTheState : Prop :=
  ∀ s : State,
    (s.st = .initOsc → outstanding s = some ⟨.cmd1, s.addr, [0x21]⟩) ∧
    (s.st = .initDisp → outstanding s = some ⟨.cmd1, s.addr, [0x81]⟩) ∧
    (s.st = .initBrt → outstanding s = some ⟨.cmd1, s.addr, [0xEF]⟩) ∧
    (s.st = .frameTx → outstanding s = some ⟨.raw, s.addr, s.txbuf.toList⟩) ∧
    (s.st.idle = true ↔ s.st = .uninit ∨ s.st = .ready ∨ s.st = .failed) ∧
    (s.st.busy = true ↔ s.st = .initOsc ∨ s.st = .initDisp ∨ s.st = .initBrt ∨ s.st = .frameTx) ∧
    (s.st.idle = true → outstanding s = none) ∧
    (s.st.busy = true ↔ ∃ tx, outstanding s = some tx) ∧
    (∀ tx i, outstanding s = some tx → outstandingInstr s = some i → encode i = .wire tx.bytes) ∧
    (∀ t, s.st.busy = true → answerNext s = false → resetNext s = false → step s = .next t →
      t.st = s.st ∧ outstanding t = outstanding s)

/-! ## The look-up table -/

/-- R62, R63, R64, R66: what the LUT reads. The default map reads the build's mask for a code point of its domain, and 0x0000
outside it and for '.'; the custom map reads its entry, and 0x0000 where it has none. -/
def Obligations.UnmappedCharactersReadZero : Prop :=
  ∀ (s : State) (c : CodePoint),
    (s.mapSel = false → c < 0x20 ∨ 0x7E < c ∨ c = 0x2E → lutRead s c = 0x0000) ∧
    (s.mapSel = false → 0x20 ≤ c → c ≤ 0x7E → c ≠ 0x2E → lutRead s c = s.build.defaultTable.getD (c.toNat - 0x20) 0x0000) ∧
    (s.mapSel = true → s.build.hasCustomMap = false → lutRead s c = 0x0000) ∧
    (∀ entries, s.mapSel = true → s.build.customMap = some entries →
      ((∀ e ∈ entries, e.1 ≠ c) → lutRead s c = 0x0000) ∧ (0x10FFFF < c → lutRead s c = 0x0000) ∧
      (∀ m, c ≤ 0x10FFFF → (c, m) ∈ entries → (∀ m', (c, m') ∈ entries → m' = m) → lutRead s c = m))

/-- R68: the literal decoder accepts exactly the strings of sixteen '0' and '1', and reads the first as bit 15. -/
def Obligations.LiteralDecoderReadsSixteenBits : Prop :=
  (∀ (l : List Char) (v : Mask), litDecode l = .ok v ↔
    l.length = 16 ∧ (∀ c ∈ l, c = '0' ∨ c = '1') ∧ ∀ j, j ≤ 15 → v.getLsbD (15 - j) = (l[j]? == some '1')) ∧
  (∀ l : List Char, ¬(l.length = 16 ∧ ∀ c ∈ l, c = '0' ∨ c = '1') → litDecode l = .error .invalidCharacterLiteral)

/-- R70: the literal of a mask, and decoding it gives the mask. -/
def Obligations.LiteralRoundTrip : Prop :=
  ∀ v : Mask, (litEncode v).length = 16 ∧
    (∀ j, j ≤ 15 → (litEncode v)[j]? = some (if v.getLsbD (15 - j) then '1' else '0')) ∧ litDecode (litEncode v) = .ok v

/-- R68, R69, R113: a configuration is built only from valid literals, and reads back each of them. That a custom map's keys
are distinct code points is R66 (log entry 18). An invalid literal is reported as R69's error, whatever the keys. -/
def Obligations.OnlyValidLiteralsBuildABlock : Prop :=
  (∀ (default : List (List Char)) (custom : Option (List (CodePoint × List Char))) (n : Fin 24) (l : List Char),
    (l ∈ default ∨ ∃ entries, custom = some entries ∧ l ∈ entries.map (·.2)) →
    litDecode l = .error .invalidCharacterLiteral →
    buildFromLiterals default custom n = .error .invalidCharacterLiteral) ∧
  ∀ (default : List (List Char)) (custom : Option (List (CodePoint × List Char))) (n : Fin 24) (b : Build),
    buildFromLiterals default custom n = .ok b →
      b.hasCustomMap = custom.isSome ∧ b.busErrWidth = n.val + 1 ∧
      (∀ l ∈ default, ∃ m, litDecode l = .ok m) ∧
      (∀ (c : CodePoint) (l : List Char), 0x20 ≤ c → c ≤ 0x7E → c ≠ 0x2E → default[c.toNat - 0x20]? = some l →
        litDecode l = .ok (defaultMap b c)) ∧
      (∀ entries, custom = some entries → ∀ e ∈ entries, litDecode e.2 = .ok (customMap b e.1))

/-! ## Commands -/

/-- R104: NOP responds OK and does nothing else, whatever its ignored bits; it is accepted in every idle state. -/
def Obligations.NopRespondsOk : Prop :=
  (∀ s : State, exec .nop s = .next (s.responding 0x00000000)) ∧ encode .nop = .command 0x00000000 ∧
  (∀ (s : State) (w : Word), opField w = 0x0 → AcceptedAs w .nop s)

/-- R74: INIT latches the address and the map, clears the encoder and starts the bring-up; without a custom map, `custom = 1`
is ILLEGAL_COMMAND and changes nothing else. Its word is accepted in every idle state. -/
def Obligations.InitStartsTheBringUp : Prop :=
  (∀ (s : State) (a : DevAddr) (custom : Bool),
    (custom = false ∨ s.build.hasCustomMap = true →
      exec (.init a custom) s = .next { encClear s with addr := a, mapSel := custom, st := .initOsc } ∧
      outstanding { encClear s with addr := a, mapSel := custom, st := .initOsc } = some ⟨.cmd1, a, [0x21]⟩) ∧
    (custom = true → s.build.hasCustomMap = false → exec (.init a custom) s = .next (s.responding 0x40000000))) ∧
  (∀ (s : State) (w : Word), opField w = 0x1 → w.getLsbD 7 = false ∨ s.build.hasCustomMap = true →
    AcceptedAs w (.init (w.extractLsb' 0 7) (w.getLsbD 7)) s) ∧
  (∀ (s : State) (w : Word), opField w = 0x1 → w.getLsbD 7 = true → s.build.hasCustomMap = false →
    AcceptedAs w .reserved s)

/-- R114: a text command outside READY clears the encoder and answers NOT_READY; nothing else changes. Accepted, it stands in
UNINIT or FAILED. -/
def Obligations.TextCommandsNeedReady : Prop :=
  ∀ s : State, s.st ≠ .ready →
    (∀ i, nextCommand s = some i → s.st = .uninit ∨ s.st = .failed) ∧
    (∀ cp, exec (.char cp) s = .next ((encClear s).responding 0x30000000)) ∧
    (∀ m, exec (.mask m) s = .next ((encClear s).responding 0x30000000)) ∧
    exec .showText s = .next ((encClear s).responding 0x30000000)

/-- R88: CHAR decorates the pending character on a period, and else commits it and makes its own character pending; outside
READY it is NOT_READY. -/
def Obligations.CharFollowsTheLookAhead : Prop :=
  (∀ (s : State) (cp : CodePoint),
    (s.st ≠ .ready → exec (.char cp) s = .next ((encClear s).responding 0x30000000)) ∧
    (s.st = .ready → s.pend = true → cp = 0x2E →
      exec (.char cp) s =
        .next (State.responding { commit (s.pmask ||| 0x4000) s with pend := false, pmask := 0x0000 } 0x00000000)) ∧
    (s.st = .ready → s.pend = true → cp ≠ 0x2E →
      exec (.char cp) s =
        .next (State.responding { commit s.pmask s with pend := true, pmask := lutRead s cp } 0x00000000)) ∧
    (s.st = .ready → s.pend = false →
      exec (.char cp) s = .next (State.responding { s with pend := true, pmask := lutRead s cp } 0x00000000))) ∧
  (∀ (s : State) (w : Word), opField w = 0x2 → AcceptedAs w (.char (w.extractLsb' 0 21)) s)

/-- R89: MASK commits a pending character undecorated and then its own mask; outside READY it is NOT_READY. -/
def Obligations.MaskAppendsARawCell : Prop :=
  (∀ (s : State) (m : Mask),
    (s.st ≠ .ready → exec (.mask m) s = .next ((encClear s).responding 0x30000000)) ∧
    (s.st = .ready → s.pend = true →
      exec (.mask m) s =
        .next (State.responding (commit m { commit s.pmask s with pend := false, pmask := 0x0000 }) 0x00000000)) ∧
    (s.st = .ready → s.pend = false → exec (.mask m) s = .next ((commit m s).responding 0x00000000))) ∧
  (∀ (s : State) (w : Word), opField w = 0x3 → AcceptedAs w (.mask (w.extractLsb' 0 16)) s)

/-- R95: SHOW commits a pending character; a text of more than four cells is OVERLONG_TEXT and issues nothing; else the frame
is packed and outstanding. The encoder is clear on every path; outside READY it is NOT_READY. -/
def Obligations.ShowChecksAndSendsTheFrame : Prop :=
  (∀ s : State,
    (s.st ≠ .ready → exec .showText s = .next ((encClear s).responding 0x30000000)) ∧
    (∀ u : State, s.st = .ready →
      u = (if s.pend then { commit s.pmask s with pend := false, pmask := 0x0000 } else s) →
      (u.ovf = true → exec .showText s = .next ((encClear u).responding 0x20000000) ∧
        outstanding ((encClear u).responding 0x20000000) = none) ∧
      (u.ovf = false →
        exec .showText s = .next { encClear u with txbuf := pack u.cells u.ncells.toNat, st := .frameTx } ∧
        outstanding { encClear u with txbuf := pack u.cells u.ncells.toNat, st := .frameTx } =
          some ⟨.raw, s.addr, (pack u.cells u.ncells.toNat).toList⟩))) ∧
  (∀ (s : State) (w : Word), opField w = 0x4 → AcceptedAs w .showText s)

/-- R71: LOOKUP answers OK with the bound map's mask, zero-extended, in every state, and changes nothing else. -/
def Obligations.LookupReturnsTheMask : Prop :=
  (∀ (s : State) (cp : CodePoint), exec (.lookup cp) s = .next (s.responding ((lutRead s cp).setWidth 32))) ∧
  (∀ (s : State) (w : Word), opField w = 0x5 → AcceptedAs w (.lookup (w.extractLsb' 0 21)) s) ∧
  (∀ s : State, s.mapSel = false → exec (.lookup 0x2E) s = .next (s.responding 0x00000000))

/-- R90: CLEAR empties the encoder and responds OK in every state. -/
def Obligations.ClearDiscardsThePartialText : Prop :=
  (∀ s : State, exec .clear s = .next ((encClear s).responding 0x00000000)) ∧ encode .clear = .command 0x60000000 ∧
  (∀ (s : State) (w : Word), opField w = 0x6 → AcceptedAs w .clear s)

/-- R105: STATUS answers OK with every field of the status word in its place, writes nothing else, and, being accepted only
in an idle state, shows `st` as 0, 4 or 6. -/
def Obligations.StatusReportsTheRegisters : Prop :=
  (∀ s : State, ∃ w : Word, exec .status s = .next (s.responding w) ∧
    w.extractLsb' 0 3 = s.st.code ∧ w.extractLsb' 3 3 = s.ncells ∧ w.getLsbD 6 = s.pend ∧ w.getLsbD 7 = s.ovf ∧
    w.extractLsb' 8 7 = s.addr ∧ w.getLsbD 15 = s.mapSel ∧ w.extractLsb' 16 12 = 0 ∧ respCode w = 0x0) ∧
  (∀ s : State, nextCommand s = some .status → s.st.code = 0 ∨ s.st.code = 4 ∨ s.st.code = 6) ∧
  (∀ (s : State) (w : Word), opField w = 0x7 → AcceptedAs w .status s)

/-- R52, R115: a reserved opcode, and INIT with `custom = 1` where there is no custom map, answer ILLEGAL_COMMAND with data 0
and change nothing but the response register. -/
def Obligations.ReservedWordsAreIllegal : Prop :=
  (∀ (s : State) (w : Word), 0x8 ≤ opField w ∨ (opField w = 0x1 ∧ w.getLsbD 7 = true ∧ s.build.hasCustomMap = false) →
    exec (decodeCommand s.build.hasCustomMap w) s = .next (s.responding 0x40000000)) ∧
  (∀ s : State, exec .reserved s = .next (s.responding 0x40000000))

/-! ## Answers to bus transactions -/

/-- R75: the outstanding write in its busy state, and the answer to the byte 0x21. -/
def Obligations.OscillatorWriteAnswered : Prop :=
  ∀ (s : State) (rest : List Input), s.st = .initOsc →
    outstanding s = some ⟨.cmd1, s.addr, [0x21]⟩ ∧
    (s.inputs = .answer .ok :: rest → ∃ t, exec .busOscOn s = .next t ∧ t.st = .initDisp ∧
      outstanding t = some ⟨.cmd1, s.addr, [0x81]⟩ ∧ t.resp = s.resp ∧ t.respValid = s.respValid) ∧
    (∀ e, e.toNat < 2 ^ s.build.busErrWidth → s.inputs = .answer (.err e) :: rest → ∃ t, exec .busOscOn s = .next t ∧ t.st = .failed ∧
      t.respValid = true ∧ t.resp = 0x1#4 ++ 0#2 ++ 0#2 ++ e)

/-- R76: the outstanding write in its busy state, and the answer to the byte 0x81. -/
def Obligations.DisplayOnWriteAnswered : Prop :=
  ∀ (s : State) (rest : List Input), s.st = .initDisp →
    outstanding s = some ⟨.cmd1, s.addr, [0x81]⟩ ∧
    (s.inputs = .answer .ok :: rest → ∃ t, exec .busDispOn s = .next t ∧ t.st = .initBrt ∧
      outstanding t = some ⟨.cmd1, s.addr, [0xEF]⟩ ∧ t.resp = s.resp ∧ t.respValid = s.respValid) ∧
    (∀ e, e.toNat < 2 ^ s.build.busErrWidth → s.inputs = .answer (.err e) :: rest → ∃ t, exec .busDispOn s = .next t ∧ t.st = .failed ∧
      t.respValid = true ∧ t.resp = 0x1#4 ++ 1#2 ++ 0#2 ++ e)

/-- R77: the outstanding write in its busy state, and the answer to the byte 0xEF. -/
def Obligations.BrightnessWriteAnswered : Prop :=
  ∀ (s : State) (rest : List Input), s.st = .initBrt →
    outstanding s = some ⟨.cmd1, s.addr, [0xEF]⟩ ∧
    (s.inputs = .answer .ok :: rest → ∃ t, exec .busBrightness s = .next t ∧ t.st = .ready ∧
      t.respValid = true ∧ t.resp = 0x00000000) ∧
    (∀ e, e.toNat < 2 ^ s.build.busErrWidth → s.inputs = .answer (.err e) :: rest → ∃ t, exec .busBrightness s = .next t ∧ t.st = .failed ∧
      t.respValid = true ∧ t.resp = 0x1#4 ++ 2#2 ++ 0#2 ++ e)

/-- R96: the answer to the frame write; the Display stays usable either way. -/
def Obligations.FrameWriteAnswered : Prop :=
  ∀ (s : State) (rest : List Input), s.st = .frameTx →
    outstanding s = some ⟨.raw, s.addr, s.txbuf.toList⟩ ∧
    (s.inputs = .answer .ok :: rest → ∃ t, exec (.busFrame s.txbuf) s = .next t ∧ t.st = .ready ∧
      t.respValid = true ∧ t.resp = 0x00000000) ∧
    (∀ e, e.toNat < 2 ^ s.build.busErrWidth → s.inputs = .answer (.err e) :: rest → ∃ t, exec (.busFrame s.txbuf) s = .next t ∧ t.st = .ready ∧
      t.respValid = true ∧ t.resp = 0x1#4 ++ 3#2 ++ 0#2 ++ e)

/-- R54, R78, R110: an `ERR(e)` answer ends the command: the `BUS_ERR_W`-bit code is passed through unchanged, zero-extended,
with its stage, no transaction is outstanding after it, and `st` is FAILED after a bring-up write and READY after a frame. -/
def Obligations.BusErrorIsReportedVerbatim : Prop :=
  ∀ (s : State) (e : BitVec 24) (rest : List Input), s.st.busy = true → e.toNat < 2 ^ s.build.busErrWidth →
    s.inputs = .answer (.err e) :: rest →
    ∃ t, step s = .next t ∧ outstanding t = none ∧ t.respValid = true ∧ respCode t.resp = 0x1 ∧
      (respData t.resp).extractLsb' 0 24 = e ∧
      (∀ k, s.build.busErrWidth ≤ k → k ≤ 23 → (respData t.resp).getLsbD k = false) ∧ (respData t.resp).extractLsb' 24 2 = 0 ∧
      (respData t.resp).extractLsb' 26 2 =
        (if s.st = .initOsc then 0 else if s.st = .initDisp then 1 else if s.st = .initBrt then 2 else 3) ∧
      t.st = (if s.st = .frameTx then .ready else .failed)

/-- R4 and log entries 12, 13, 14 (the model's choices): a bus row whose transaction is not outstanding is refused, one whose
answer has not come waits, and one answered with a code wider than `BUS_ERR_W` is refused. -/
def Obligations.BusRowsNeedTheirTransaction : Prop :=
  ∀ s : State,
    (s.st ≠ .initOsc → exec .busOscOn s = .refused .notOutstanding) ∧
    (s.st ≠ .initDisp → exec .busDispOn s = .refused .notOutstanding) ∧
    (s.st ≠ .initBrt → exec .busBrightness s = .refused .notOutstanding) ∧
    (∀ f, s.st ≠ .frameTx ∨ s.txbuf ≠ f → exec (.busFrame f) s = .refused .notOutstanding) ∧
    (∀ i, outstandingInstr s = some i → answerNext s = false → exec i s = .next s) ∧
    (∀ i e rest, outstandingInstr s = some i → s.inputs = .answer (.err e) :: rest →
      2 ^ s.build.busErrWidth ≤ e.toNat → exec i s = .refused .wideErrorCode)

/-- R8, R123 and log entries 7, 8: an answer joins the observed list with its transaction, and the chip shadow follows it: a
field is known after OK, and unknown after ERR. Where the frame's bytes land in the chip's RAM is R33's general
knowledge (log entry 8); that there is one shadow for every address is log entry 26. -/
def Obligations.AnswersAreObservedAndTold : Prop :=
  ∀ (s t : State) (tx : Transaction) (i : Instr) (r : BusAnswer) (rest : List Input),
    outstanding s = some tx → outstandingInstr s = some i → s.inputs = .answer r :: rest → exec i s = .next t →
      t.inputs = rest ∧ t.busLog = s.busLog ++ [⟨tx, some r⟩] ∧
      (i = .busOscOn → t.chip = { s.chip with oscOn := if r = .ok then some true else none }) ∧
      (i = .busDispOn → t.chip = { s.chip with
        dispOn := if r = .ok then some true else none, blinkOff := if r = .ok then some true else none }) ∧
      (i = .busBrightness → t.chip = { s.chip with brightness := if r = .ok then some 15 else none }) ∧
      (∀ f, i = .busFrame f → t.chip.oscOn = s.chip.oscOn ∧ t.chip.dispOn = s.chip.dispOn ∧
        t.chip.blinkOff = s.chip.blinkOff ∧ t.chip.brightness = s.chip.brightness ∧
        (∀ j, j < 8 → t.chip.ram.read j = if r = .ok then f.toList[1 + j]? else none) ∧
        (∀ a, 8 ≤ a → t.chip.ram.read a = s.chip.ram.read a))

/-! ## Frames -/

/-- R71, R104, R105, R115: NOP, LOOKUP, STATUS and RESERVED write the response register and nothing else; every byte of the
chip's RAM reads as before. -/
def Obligations.FrameOfResponseOnlyCommands : Prop :=
  ∀ (i : Instr) (s t : State), i = .nop ∨ (∃ cp, i = .lookup cp) ∨ i = .status ∨ i = .reserved → exec i s = .next t →
    t = { s with resp := t.resp, respValid := true } ∧ ∀ a, t.chip.ram.read a = s.chip.ram.read a

/-- R88, R89, R90: CHAR, MASK and CLEAR write the encoder registers and the response register and nothing else; every byte
of the chip's RAM reads as before. -/
def Obligations.FrameOfEncoderCommands : Prop :=
  ∀ (i : Instr) (s t : State), (∃ cp, i = .char cp) ∨ (∃ m, i = .mask m) ∨ i = .clear → exec i s = .next t →
    t = { s with
      cells := t.cells, ncells := t.ncells, pend := t.pend, pmask := t.pmask, ovf := t.ovf, resp := t.resp
      respValid := true } ∧ ∀ a, t.chip.ram.read a = s.chip.ram.read a

/-- R74, R81, R95: INIT and SHOW write `st`, the encoder registers and the response register; INIT also `addr` and `map_sel`,
SHOW also `txbuf`. Nothing else changes, and every byte of the chip's RAM reads as before. -/
def Obligations.FrameOfInitAndShow : Prop :=
  (∀ (a : DevAddr) (c : Bool) (s t : State), exec (.init a c) s = .next t →
    t = { s with
      st := t.st, addr := t.addr, mapSel := t.mapSel, cells := t.cells, ncells := t.ncells, pend := t.pend
      pmask := t.pmask, ovf := t.ovf, resp := t.resp, respValid := t.respValid } ∧
    ∀ x, t.chip.ram.read x = s.chip.ram.read x) ∧
  (∀ s t : State, exec .showText s = .next t →
    t = { s with
      st := t.st, cells := t.cells, ncells := t.ncells, pend := t.pend, pmask := t.pmask, ovf := t.ovf, txbuf := t.txbuf
      resp := t.resp, respValid := t.respValid } ∧
    ∀ x, t.chip.ram.read x = s.chip.ram.read x)

/-- R75, R76, R77, R96: an answered transaction writes `st` and the response register and, around the block, the move used
up, the observed list and the chip shadow; no bring-up write touches the chip's RAM, and a frame only its bytes 0 to 7. That
a frame lands in these bytes is log entry 8 (PRESUMED: R33's general-knowledge placement). -/
def Obligations.FrameOfBusRows : Prop :=
  ∀ (i : Instr) (s t : State),
    i = .busOscOn ∨ i = .busDispOn ∨ i = .busBrightness ∨ (∃ f, i = .busFrame f) → exec i s = .next t →
      t = { s with
        st := t.st, resp := t.resp, respValid := t.respValid, inputs := t.inputs, busLog := t.busLog, chip := t.chip } ∧
      ((∀ f, i ≠ .busFrame f) → t.chip.ram = s.chip.ram) ∧
      (∀ a, 8 ≤ a → t.chip.ram.read a = s.chip.ram.read a)

/-! ## The packer and the encoder -/

/-- R34, R57, R93, R94: the frame is nine bytes, the register-select byte first, then each cell low byte first, 0x0000 for a
slot not supplied; it does not look at the cells not supplied; a cell's bit 14 is bit 6 of its high byte; a list of masks is
packed as that many cells. -/
def Obligations.PackLaysOutTheFrame : Prop :=
  (∀ (c : Cells) (n : Nat), (pack c n).toList.length = 9 ∧ (pack c n).toList[0]? = some 0x00 ∧
    ∀ k, k ≤ 3 →
      (pack c n).toList[1 + 2 * k]? = some ((if k < n then c.get k else 0x0000).extractLsb' 0 8) ∧
      (pack c n).toList[2 + 2 * k]? = some ((if k < n then c.get k else 0x0000).extractLsb' 8 8)) ∧
  (∀ c : Cells, pack c 0 = Frame.zero) ∧
  (∀ (c : Cells) (n k : Nat), k ≤ 3 → k < n →
    ((pack c n).toList[2 + 2 * k]?).map (·.getLsbD 6) = some ((c.get k).getLsbD 14)) ∧
  (∀ (c : Cells) (n : Nat), n ≤ 4 → packList (c.toList.take n) = pack c n) ∧
  (∀ (c d : Cells) (n : Nat), (∀ k, k < n → c.get k = d.get k) → pack c n = pack d n) ∧
  packList [0x1234, 0xABCD] = ⟨0x00, 0x34, 0x12, 0xCD, 0xAB, 0x00, 0x00, 0x00, 0x00⟩

/-- R85: a text of length `L` gives at least `ceil(L/2)` and at most `L` cells; nine characters are always overlong, and four
never. -/
def Obligations.TextLengthBoundsTheCells : Prop :=
  ∀ (T : CodePoint → Mask) (t : List CodePoint),
    (t.length + 1) / 2 ≤ (encodeCells T t).length ∧ (encodeCells T t).length ≤ t.length ∧
    (9 ≤ t.length → encodeText T t = none) ∧ (t.length ≤ 4 → encodeText T t = some (encodeCells T t))

/-- R61, R91, R99: a text sent one CHAR at a time in READY with the encoder clear leaves the cells of the source's `encode`, and
the SHOW that follows answers OVERLONG_TEXT exactly for an overlong text and else sends its frame; TEXT is the two together.
SHOWMASKS sends the frame of its masks, and five or more masks are OVERLONG_TEXT with nothing sent. The meanings are run one
after the other; the host's takes between them change nothing of the encoder. -/
def Obligations.CharStreamAgreesWithEncode : Prop :=
  (∀ (text : List CodePoint) (s : State), s.st = .ready → EncoderClear s →
    ∃ t, feed (text.map .char) s = .next t ∧ t.st = .ready ∧
      (t.ovf = false → encodeCells (lutRead s) text = encoderContents t) ∧
      (t.ovf = true → 4 < (encodeCells (lutRead s) text).length ∧
        t.cells.toList = (encodeCells (lutRead s) text).take 4) ∧
      ∃ u, exec .showText t = .next u ∧ feed (textCommands text) s = .next u ∧
        (encodeText (lutRead s) text = none → u = (encClear t).responding 0x20000000) ∧
        (∀ l, encodeText (lutRead s) text = some l → u.st = .frameTx ∧
          outstanding u = some ⟨.raw, s.addr, (packList l).toList⟩)) ∧
  (∀ (masks : List Mask) (s : State), s.st = .ready → EncoderClear s →
    ∃ t, feed (masks.map .mask) s = .next t ∧ t.st = .ready ∧ t.pend = false ∧
      t.cells.toList.take t.ncells.toNat = masks.take 4 ∧ (t.ovf = true ↔ 4 < masks.length) ∧
      ∃ u, feed (showMasksCommands masks) s = .next u ∧ EncoderClear u ∧
        (masks.length ≤ 4 → u.st = .frameTx ∧ outstanding u = some ⟨.raw, s.addr, (packList masks).toList⟩) ∧
        (4 < masks.length → u = (encClear t).responding 0x20000000 ∧ outstanding u = none))

/-- R80: INIT at the level of commands, for each way the bus can answer: the transactions issued, the final `st`, and the
response. -/
def Obligations.InitRunsItsThreeWritesInOrder : Prop :=
  ∀ (s : State) (a : DevAddr) (custom : Bool) (w : Word) (e : BitVec 24) (rest : List Input),
    s.portReady = true → s.waiting = [] → (custom = false ∨ s.build.hasCustomMap = true) →
    encode (.init a custom) = .command w → e.toNat < 2 ^ s.build.busErrWidth →
    (s.inputs = [.offer w, .answer (.err e)] ++ rest → ∃ t, runSteps 2 s = .next t ∧ t.st = .failed ∧
      t.respValid = true ∧ t.resp = 0x10000000 ||| e.setWidth 32 ∧
      t.busLog = s.busLog ++ [⟨⟨.cmd1, a, [0x21]⟩, some (.err e)⟩]) ∧
    (s.inputs = [.offer w, .answer .ok, .answer (.err e)] ++ rest → ∃ t, runSteps 3 s = .next t ∧ t.st = .failed ∧
      t.respValid = true ∧ t.resp = 0x14000000 ||| e.setWidth 32 ∧
      t.busLog = s.busLog ++ [⟨⟨.cmd1, a, [0x21]⟩, some .ok⟩, ⟨⟨.cmd1, a, [0x81]⟩, some (.err e)⟩]) ∧
    (s.inputs = [.offer w, .answer .ok, .answer .ok, .answer (.err e)] ++ rest →
      ∃ t, runSteps 4 s = .next t ∧ t.st = .failed ∧ t.respValid = true ∧ t.resp = 0x18000000 ||| e.setWidth 32 ∧
        t.busLog = s.busLog ++
          [⟨⟨.cmd1, a, [0x21]⟩, some .ok⟩, ⟨⟨.cmd1, a, [0x81]⟩, some .ok⟩, ⟨⟨.cmd1, a, [0xEF]⟩, some (.err e)⟩]) ∧
    (s.inputs = [.offer w, .answer .ok, .answer .ok, .answer .ok] ++ rest →
      ∃ t, runSteps 4 s = .next t ∧ t.st = .ready ∧ t.respValid = true ∧ t.resp = 0x00000000 ∧
        t.busLog = s.busLog ++
          [⟨⟨.cmd1, a, [0x21]⟩, some .ok⟩, ⟨⟨.cmd1, a, [0x81]⟩, some .ok⟩, ⟨⟨.cmd1, a, [0xEF]⟩, some .ok⟩])

/-- R95, R96, R98: SHOW at the level of commands, by the state and the encoder's contents: the transaction issued, the final
`st`, the response, and the encoder clear in every row. It departs from R98's words where `ovf = 1`: the contents then hold the
first four cells only, R98's row for at most four would send a frame, and R95's pseudocode, followed here, answers
OVERLONG_TEXT. -/
def Obligations.ShowSendsOneFrameOrNone : Prop :=
  ∀ (s : State) (rest : List Input), s.portReady = true → s.waiting = [] →
    (s.st ≠ .ready → s.inputs = .offer 0x40000000 :: rest → ∃ t, runSteps 1 s = .next t ∧ t.st = s.st ∧
      t.respValid = true ∧ t.resp = 0x30000000 ∧ t.busLog = s.busLog ∧ EncoderClear t) ∧
    (s.st = .ready → s.ovf = true ∨ 4 < (encoderContents s).length → s.inputs = .offer 0x40000000 :: rest →
      ∃ t, runSteps 1 s = .next t ∧ t.st = .ready ∧ t.respValid = true ∧ t.resp = 0x20000000 ∧ t.busLog = s.busLog ∧
        EncoderClear t) ∧
    (∀ r : BusAnswer, s.st = .ready → s.ovf = false → (encoderContents s).length ≤ 4 → r.fits s.build = true →
      s.inputs = .offer 0x40000000 :: .answer r :: rest →
      ∃ t, runSteps 2 s = .next t ∧ t.st = .ready ∧ t.respValid = true ∧ EncoderClear t ∧
        t.busLog = s.busLog ++ [⟨⟨.raw, s.addr, (packList (encoderContents s)).toList⟩, some r⟩] ∧
        (r = .ok → t.resp = 0x00000000) ∧ (∀ e, r = .err e → t.resp = 0x1C000000 ||| e.setWidth 32))

/-! ## Rules about every step -/

/-- R26 to R29, R16, R54, R56, R101: every step from a legal state ends in a legal state. -/
def Obligations.StepKeepsTheStateLegal : Prop :=
  ∀ s t : State, Legal s → step s = .next t → Legal t

/-- The state right after reset is legal. -/
def Obligations.ResetStateIsLegal : Prop := Legal State.reset

/-- R108, R119: from a legal state every step completes where the next move is one the spec gives the surroundings; no error of
the block stops it. That no move at all, and an answer that finds nothing outstanding, complete is log entries 6 and 5, and that
the two moves the spec does not give are refused is log entries 25 and 14: the model's choices. -/
def Obligations.LegalStateAlwaysSteps : Prop :=
  ∀ s : State, Legal s →
    (moveAllowed s = true → ∃ t, step s = .next t) ∧
    (moveAllowed s = false → step s = .refused .noResponseToTake ∨ step s = .refused .wideErrorCode)

/-- R12: the encodings of `st`, and only INIT, SHOW, the bus's answers and reset write it, each as its rule says. -/
def Obligations.OnlyTheNamedRulesWriteSt : Prop :=
  [Ctrl.uninit, .initOsc, .initDisp, .initBrt, .ready, .frameTx, .failed, .code7].map Ctrl.code =
    [0, 1, 2, 3, 4, 5, 6, 7] ∧
  ∀ s t : State, step s = .next t → t.st ≠ s.st →
    (resetNext s = true ∧ t.st = .uninit) ∨
    (∃ a c, nextCommand s = some (.init a c) ∧ t.st = .initOsc) ∨
    (nextCommand s = some .showText ∧ s.st = .ready ∧ t.st = .frameTx) ∨
    (answerNext s = true ∧
      ((s.st = .initOsc ∧ (t.st = .initDisp ∨ t.st = .failed)) ∨ (s.st = .initDisp ∧ (t.st = .initBrt ∨ t.st = .failed)) ∨
        (s.st = .initBrt ∧ (t.st = .ready ∨ t.st = .failed)) ∨ (s.st = .frameTx ∧ t.st = .ready)))

/-- R15, R16, R67: only an accepted INIT, and reset, write `addr` and `map_sel`; every transaction carries `addr`. -/
def Obligations.OnlyInitWritesAddressAndMap : Prop :=
  (∀ (s : State) (tx : Transaction), outstanding s = some tx → tx.addr = s.addr) ∧
  ∀ s t : State, step s = .next t → (t.addr ≠ s.addr ∨ t.mapSel ≠ s.mapSel) →
    resetNext s = true ∨ ∃ a c, nextCommand s = some (.init a c) ∧ t.addr = a ∧ t.mapSel = c

/-- R20: only a SHOW that passes its checks, and reset, write `txbuf`. -/
def Obligations.OnlyShowWritesTheFrameBuffer : Prop :=
  ∀ s t : State, step s = .next t → t.txbuf ≠ s.txbuf →
    resetNext s = true ∨ (nextCommand s = some .showText ∧ s.st = .ready ∧ t.st = .frameTx)

/-- R19: `ovf` is sticky: a step that clears it clears the whole encoder; a step that sets it is a CHAR or MASK in READY, and
leaves four cells committed. -/
def Obligations.OverflowIsSticky : Prop :=
  ∀ s t : State, step s = .next t →
    (s.ovf = true → t.ovf = false → EncoderClear t) ∧
    (s.ovf = false → t.ovf = true → s.st = .ready ∧ 4 ≤ t.ncells.toNat ∧
      ∃ i, nextCommand s = some i ∧ ((∃ cp, i = .char cp) ∨ (∃ m, i = .mask m)))

/-- R25, R30: no step changes the configuration, and so a LUT read gives the same value while the bound map stays. -/
def Obligations.TheTableNeverChanges : Prop :=
  ∀ s t : State, step s = .next t → t.build = s.build ∧ (t.mapSel = s.mapSel → ∀ c, lutRead t c = lutRead s c)

/-- R8, R41: a step ends at most one transaction, the outstanding one, and while it does not end, it stays the outstanding one;
the transactions issued stay in their order, and a step issues at most one more. That a reset's cut is recorded with no answer
is log entry 7. -/
def Obligations.TransactionsNeverOverlap : Prop :=
  ∀ s t : State, step s = .next t →
    ((t.busLog = s.busLog ∧ ∀ tx, outstanding s = some tx → outstanding t = some tx) ∨
      (∃ tx a, outstanding s = some tx ∧ t.busLog = s.busLog ++ [⟨tx, a⟩] ∧ (a = none ↔ resetNext s = true))) ∧
    ((observation t).1.map (·.tx) = (observation s).1.map (·.tx) ∨
      ∃ tx, outstanding t = some tx ∧ (observation t).1.map (·.tx) = (observation s).1.map (·.tx) ++ [tx])

/-- R102, R106, R107, R135: every schedule of offers, takes and answers with no reset comes to rest, and then the run has ended,
or it hangs on a bus that does not answer, or a host that takes no response leaves it stuck; where the bus answers and the host
takes, it has ended. Each command gets one response, and issues at most three transactions. A schedule with a move the spec
does not give stops in the refusal of that move (log entries 14, 25); that an answer which finds nothing outstanding is used up
is log entry 5, and that a run at rest stays as it is, log entry 6. A waiting word is accepted before a take or an answer that
stands first (log entry 27), and the state may come after a reset, of which R107 says nothing (log entry 28). -/
def Obligations.EveryScheduleEndsHangsOrIsStuck : Prop :=
  ∀ s : State, Legal s → noResets s = true →
    ∃ n, runSteps n s = .refused .noResponseToTake ∨ runSteps n s = .refused .wideErrorCode ∨
      ∃ t, runSteps n s = .next t ∧ step t = .next t ∧ t.inputs = [] ∧
        (runEnded t = true ∨ (t.st.busy = true ∧ t.respValid = false) ∨ (t.st.idle = true ∧ t.respValid = true)) ∧
        t.respLog.length + owed t = s.respLog.length + owed s ∧
        (runEnded t = true → owed t = 0) ∧
        (observation t).1.length ≤ (observation s).1.length + 3 * owed s

/-- R42: commands are accepted one at a time, in the order offered, and none is lost. That offers wait in a list is log entry 3,
and that the words waiting survive a reset is log entry 19: the model's choices. -/
def Obligations.CommandsAreAcceptedInOrder : Prop :=
  ∀ s t : State, step s = .next t →
    (nextCommand s = none → pendingWords t = pendingWords s) ∧
    (∀ i, nextCommand s = some i →
      ∃ w, pendingWords s = w :: pendingWords t ∧ i = decodeCommand s.build.hasCustomMap w)

/-- R102: every accepted command responds in its acceptance step or leaves a transaction outstanding; and an answer does the
same, so that exactly one response comes. INIT and a SHOW that passes its checks are the commands that wait. -/
def Obligations.EveryCommandGetsOneResponse : Prop :=
  (∀ (s t : State) (i : Instr), nextCommand s = some i → step s = .next t →
    ((t.respValid = true ∧ t.st.busy = false) ∨ (t.respValid = false ∧ t.st.busy = true)) ∧
    (t.st.busy = true ↔ (∃ a c, i = .init a c) ∨
      (i = .showText ∧ s.st = .ready ∧ s.ovf = false ∧ (encoderContents s).length ≤ 4))) ∧
  (∀ s t : State, s.st.busy = true → s.respValid = false → answerNext s = true → step s = .next t →
    (t.respValid = true ∧ t.st.busy = false) ∨ (t.respValid = false ∧ t.st.busy = true))

/-- R107: a run that has ended stays ended, and what was observed stands, while the host offers and takes nothing and does not
reset. The steps there are, an answer that finds nothing used up, and a state that stays as it is with no move to come, are the
model's choices (log entries 5 and 6). A run cut by an earlier reset, or with a reset to come later, counts as ended too (log
entry 28). -/
def Obligations.EndedRunStaysEnded : Prop :=
  ∀ s : State, runEnded s = true → resetNext s = false →
    ∃ t, step s = .next t ∧ runEnded t = true ∧ observation t = observation s
end

