-- ==== Sys2Proof/Laws/Decode.lean ====
section
/-! SUPPORT. Each field of a word read back from the word it was written into. -/

namespace Sys2Proof

/-- The opcode field of a word put together from its opcode and its other 28 bits. -/
theorem opField_append (op : BitVec 4) (x : BitVec 28) : opField (op ++ x) = op := by
  rw [opField, BitVec.extractLsb'_append_eq_of_le (by omega)]
  exact BitVec.extractLsb'_eq_self

theorem cpField_formatFC (op : BitVec 4) (cp : CodePoint) : cpField (formatFC op cp) = cp := by
  rw [cpField, formatFC, BitVec.extractLsb'_append_eq_of_add_le (by omega)]
  exact BitVec.extractLsb'_eq_self

theorem maskField_formatFM (op : BitVec 4) (m : Mask) : maskField (formatFM op m) = m := by
  rw [maskField, formatFM, BitVec.extractLsb'_append_eq_of_add_le (by omega)]
  exact BitVec.extractLsb'_eq_self

theorem addrField_formatFI (op : BitVec 4) (custom : Bool) (a : DevAddr) : addrField (formatFI op custom a) = a := by
  rw [addrField, formatFI, BitVec.extractLsb'_append_eq_of_add_le (by omega)]
  exact BitVec.extractLsb'_eq_self

theorem customField_formatFI (op : BitVec 4) (custom : Bool) (a : DevAddr) :
    customField (formatFI op custom a) = custom := by
  rw [customField, formatFI, BitVec.getLsbD_append, BitVec.getLsbD_append]
  simp

/-- The code of a response word put together by `respond`. -/
@[simp] theorem Machine.respCode_append (code : BitVec 4) (data : BitVec 28) :
    Machine.respCode (code ++ data) = code := by
  rw [Machine.respCode, BitVec.extractLsb'_append_eq_of_le (by omega)]
  exact BitVec.extractLsb'_eq_self

/-- The data of a response word put together by `respond`. -/
@[simp] theorem Machine.respData_append (code : BitVec 4) (data : BitVec 28) :
    Machine.respData (code ++ data) = data := by
  rw [Machine.respData, BitVec.extractLsb'_append_eq_of_add_le (by omega)]
  exact BitVec.extractLsb'_eq_self

end Sys2Proof
end

