-- ==== Sys2Proof/Laws/Memory.lean ====
section
/-! SUPPORT. What the memory operations do to a read, and that they keep the canonical form. -/

namespace Sys2Proof.Machine

@[simp] theorem Memory.read_nil (a : Nat) : Memory.read [] a = none := rfl

theorem Memory.read_write_same (m : Memory) (a : Nat) (b : Byte) : (m.write a b).read a = some b := by
  induction m with
  | nil => simp [Memory.write, Memory.read]
  | cons c rest ih =>
    simp only [Memory.write]
    split
    · simp [Memory.read]
    · split
      · simp [Memory.read]
      · next h => simp [Memory.read, h, ih]

theorem Memory.read_write_other (m : Memory) {a x : Nat} (b : Byte) (h : x ≠ a) : (m.write a b).read x = m.read x := by
  induction m with
  | nil => simp [Memory.write, Memory.read, h]
  | cons c rest ih =>
    simp only [Memory.write]
    split
    · simp [Memory.read, h]
    · split
      · next e => subst e; simp [Memory.read, h]
      · simp [Memory.read, ih]

theorem Memory.read_forget_same (m : Memory) (a : Nat) : (m.forget a).read a = none := by
  induction m with
  | nil => rfl
  | cons c rest ih =>
    simp only [Memory.forget]
    split
    · exact ih
    · next h => simp [Memory.read, h, ih]

theorem Memory.read_forget_other (m : Memory) {a x : Nat} (h : x ≠ a) : (m.forget a).read x = m.read x := by
  induction m with
  | nil => rfl
  | cons c rest ih =>
    simp only [Memory.forget]
    split
    · next e => subst e; simp [Memory.read, h, ih]
    · simp [Memory.read, ih]

/-- A canonical memory's tail is canonical, and every address in it is above the head's. -/
theorem Memory.wf_cons (c : Host.Cell) (rest : Memory) :
    Memory.wf (c :: rest) = true ↔ (∀ d ∈ rest, c.1 < d.1) ∧ Memory.wf rest = true := by
  induction rest generalizing c with
  | nil => simp [Memory.wf]
  | cons d rest ih =>
    simp only [Memory.wf, Bool.and_eq_true, decide_eq_true_eq, List.mem_cons, forall_eq_or_imp]
    constructor
    · rintro ⟨h, hw⟩
      exact ⟨⟨h, fun e he => Nat.lt_trans h (((ih d).mp hw).1 e he)⟩, hw⟩
    · rintro ⟨⟨h, -⟩, hw⟩
      exact ⟨h, hw⟩

theorem Memory.mem_write {m : Memory} {a : Nat} {b : Byte} {d : Host.Cell} (h : d ∈ m.write a b) :
    d = (a, b) ∨ d ∈ m := by
  induction m with
  | nil => simpa [Memory.write] using h
  | cons c rest ih =>
    simp only [Memory.write] at h
    split at h
    · simpa using h
    · split at h
      · simp only [List.mem_cons] at h ⊢; tauto
      · simp only [List.mem_cons] at h ⊢
        rcases h with h | h
        · tauto
        · rcases ih h with h | h <;> tauto

theorem Memory.mem_forget {m : Memory} {a : Nat} {d : Host.Cell} (h : d ∈ m.forget a) : d ∈ m := by
  induction m with
  | nil => simp [Memory.forget] at h
  | cons c rest ih =>
    simp only [Memory.forget] at h
    split at h
    · exact List.mem_cons_of_mem _ (ih h)
    · simp only [List.mem_cons] at h ⊢
      rcases h with h | h
      · exact .inl h
      · exact .inr (ih h)

theorem Memory.write_wf {m : Memory} (a : Nat) (b : Byte) (h : m.wf = true) : (m.write a b).wf = true := by
  induction m with
  | nil => rfl
  | cons c rest ih =>
    obtain ⟨hlt, hw⟩ := (Memory.wf_cons c rest).mp h
    simp only [Memory.write]
    split
    · next hac =>
      refine (Memory.wf_cons _ _).mpr ⟨?_, h⟩
      intro d hd
      simp only [List.mem_cons] at hd
      rcases hd with rfl | hd
      · exact hac
      · exact Nat.lt_trans hac (hlt d hd)
    · split
      · next e => subst e; exact (Memory.wf_cons _ _).mpr ⟨hlt, hw⟩
      · next h1 h2 =>
        refine (Memory.wf_cons _ _).mpr ⟨?_, ih hw⟩
        intro d hd
        rcases Memory.mem_write hd with rfl | hd
        · exact Nat.lt_of_le_of_ne (Nat.le_of_not_lt h1) (Ne.symm h2)
        · exact hlt d hd

theorem Memory.forget_wf {m : Memory} (a : Nat) (h : m.wf = true) : (m.forget a).wf = true := by
  induction m with
  | nil => rfl
  | cons c rest ih =>
    obtain ⟨hlt, hw⟩ := (Memory.wf_cons c rest).mp h
    simp only [Memory.forget]
    split
    · exact ih hw
    · exact (Memory.wf_cons _ _).mpr ⟨fun d hd => hlt d (Memory.mem_forget hd), ih hw⟩

theorem Memory.writeBytes_wf {m : Memory} (a : Nat) (bytes : List Byte) (h : m.wf = true) :
    (m.writeBytes a bytes).wf = true := by
  induction bytes generalizing m a with
  | nil => exact h
  | cons b rest ih => exact ih (a + 1) (Memory.write_wf a b h)

theorem Memory.forgetBytes_wf {m : Memory} (a n : Nat) (h : m.wf = true) : (m.forgetBytes a n).wf = true := by
  induction n generalizing m a with
  | zero => exact h
  | succ n ih => exact ih (a + 1) (Memory.forget_wf a h)

/-- A read after writing consecutive bytes: the byte written there, or what was read before. -/
theorem Memory.read_writeBytes (m : Memory) (a : Nat) (bytes : List Byte) (x : Nat) :
    (m.writeBytes a bytes).read x =
      if a ≤ x ∧ x < a + bytes.length then bytes[x - a]? else m.read x := by
  induction bytes generalizing m a with
  | nil => simp only [Memory.writeBytes, List.length_nil]; split <;> [omega; rfl]
  | cons b rest ih =>
    simp only [Memory.writeBytes, ih, List.length_cons]
    by_cases hx : x = a
    · subst hx
      rw [if_neg (by omega), if_pos (by omega), Memory.read_write_same]
      simp
    · rw [Memory.read_write_other _ _ hx]
      by_cases h : a + 1 ≤ x ∧ x < a + 1 + rest.length
      · rw [if_pos h, if_pos (by omega)]
        obtain ⟨k, hk⟩ : ∃ k, x - a = k + 1 := ⟨x - a - 1, by omega⟩
        rw [hk, List.getElem?_cons_succ]
        congr 1
        omega
      · rw [if_neg h, if_neg (by omega)]

/-- A read after making consecutive bytes unknown: no value there, and elsewhere what was read before. -/
theorem Memory.read_forgetBytes (m : Memory) (a n x : Nat) :
    (m.forgetBytes a n).read x = if a ≤ x ∧ x < a + n then none else m.read x := by
  induction n generalizing m a with
  | zero => simp only [Memory.forgetBytes]; split <;> [omega; rfl]
  | succ n ih =>
    simp only [Memory.forgetBytes, ih]
    by_cases hx : x = a
    · subst hx
      rw [if_neg (by omega), if_pos (by omega), Memory.read_forget_same]
    · rw [Memory.read_forget_other _ hx]
      by_cases h : a + 1 ≤ x ∧ x < a + 1 + n
      · rw [if_pos h, if_pos (by omega)]
      · rw [if_neg h, if_neg (by omega)]

end Sys2Proof.Machine
end

