-- ==== Sys2Proof/Laws/State.lean ====
section
/-! SUPPORT. One lemma per field per shared update of the state, so that no later proof unfolds a record update. -/

namespace Sys2Proof.Machine


/-! ## respond -/

@[simp] theorem respond_st (c : BitVec 4) (d : BitVec 28) (s : State) : (respond c d s).st = s.st := rfl
@[simp] theorem respond_addr (c : BitVec 4) (d : BitVec 28) (s : State) : (respond c d s).addr = s.addr := rfl
@[simp] theorem respond_mapSel (c : BitVec 4) (d : BitVec 28) (s : State) : (respond c d s).mapSel = s.mapSel := rfl
@[simp] theorem respond_cells (c : BitVec 4) (d : BitVec 28) (s : State) : (respond c d s).cells = s.cells := rfl
@[simp] theorem respond_ncells (c : BitVec 4) (d : BitVec 28) (s : State) : (respond c d s).ncells = s.ncells := rfl
@[simp] theorem respond_pend (c : BitVec 4) (d : BitVec 28) (s : State) : (respond c d s).pend = s.pend := rfl
@[simp] theorem respond_pmask (c : BitVec 4) (d : BitVec 28) (s : State) : (respond c d s).pmask = s.pmask := rfl
@[simp] theorem respond_ovf (c : BitVec 4) (d : BitVec 28) (s : State) : (respond c d s).ovf = s.ovf := rfl
@[simp] theorem respond_txbuf (c : BitVec 4) (d : BitVec 28) (s : State) : (respond c d s).txbuf = s.txbuf := rfl
@[simp] theorem respond_respValid (c : BitVec 4) (d : BitVec 28) (s : State) : (respond c d s).respValid = true := rfl
@[simp] theorem respond_resp (c : BitVec 4) (d : BitVec 28) (s : State) : (respond c d s).resp = c ++ d := rfl
@[simp] theorem respond_build (c : BitVec 4) (d : BitVec 28) (s : State) : (respond c d s).build = s.build := rfl
@[simp] theorem respond_waiting (c : BitVec 4) (d : BitVec 28) (s : State) :
    (respond c d s).waiting = s.waiting := rfl
@[simp] theorem respond_inputs (c : BitVec 4) (d : BitVec 28) (s : State) : (respond c d s).inputs = s.inputs := rfl
@[simp] theorem respond_busLog (c : BitVec 4) (d : BitVec 28) (s : State) : (respond c d s).busLog = s.busLog := rfl
@[simp] theorem respond_respLog (c : BitVec 4) (d : BitVec 28) (s : State) :
    (respond c d s).respLog = s.respLog := rfl
@[simp] theorem respond_chip (c : BitVec 4) (d : BitVec 28) (s : State) : (respond c d s).chip = s.chip := rfl
@[simp] theorem respondOk_eq (d : BitVec 28) (s : State) : respondOk d s = respond 0x0 d s := rfl
@[simp] theorem raise_eq (k : ErrorKind) (s : State) : raise k s = respond (errorCode k) (errorData k) s := rfl
@[simp] theorem notReady_eq (s : State) : notReady s = respond 0x3 0 (encClear s) := rfl

/-! ## encClear -/

@[simp] theorem encClear_st (s : State) : (encClear s).st = s.st := rfl
@[simp] theorem encClear_addr (s : State) : (encClear s).addr = s.addr := rfl
@[simp] theorem encClear_mapSel (s : State) : (encClear s).mapSel = s.mapSel := rfl
@[simp] theorem encClear_cells (s : State) : (encClear s).cells = Cells.zero := rfl
@[simp] theorem encClear_ncells (s : State) : (encClear s).ncells = 0 := rfl
@[simp] theorem encClear_pend (s : State) : (encClear s).pend = false := rfl
@[simp] theorem encClear_pmask (s : State) : (encClear s).pmask = 0 := rfl
@[simp] theorem encClear_ovf (s : State) : (encClear s).ovf = false := rfl
@[simp] theorem encClear_txbuf (s : State) : (encClear s).txbuf = s.txbuf := rfl
@[simp] theorem encClear_respValid (s : State) : (encClear s).respValid = s.respValid := rfl
@[simp] theorem encClear_resp (s : State) : (encClear s).resp = s.resp := rfl
@[simp] theorem encClear_build (s : State) : (encClear s).build = s.build := rfl
@[simp] theorem encClear_waiting (s : State) : (encClear s).waiting = s.waiting := rfl
@[simp] theorem encClear_inputs (s : State) : (encClear s).inputs = s.inputs := rfl
@[simp] theorem encClear_busLog (s : State) : (encClear s).busLog = s.busLog := rfl
@[simp] theorem encClear_respLog (s : State) : (encClear s).respLog = s.respLog := rfl
@[simp] theorem encClear_chip (s : State) : (encClear s).chip = s.chip := rfl

/-! ## commit -/

@[simp] theorem commit_st (m : Mask) (s : State) : (commit m s).st = s.st := by unfold commit; split <;> rfl
@[simp] theorem commit_addr (m : Mask) (s : State) : (commit m s).addr = s.addr := by unfold commit; split <;> rfl
@[simp] theorem commit_mapSel (m : Mask) (s : State) :
    (commit m s).mapSel = s.mapSel := by unfold commit; split <;> rfl
@[simp] theorem commit_pend (m : Mask) (s : State) : (commit m s).pend = s.pend := by unfold commit; split <;> rfl
@[simp] theorem commit_pmask (m : Mask) (s : State) : (commit m s).pmask = s.pmask := by unfold commit; split <;> rfl
@[simp] theorem commit_txbuf (m : Mask) (s : State) : (commit m s).txbuf = s.txbuf := by unfold commit; split <;> rfl
@[simp] theorem commit_respValid (m : Mask) (s : State) :
    (commit m s).respValid = s.respValid := by unfold commit; split <;> rfl
@[simp] theorem commit_resp (m : Mask) (s : State) : (commit m s).resp = s.resp := by unfold commit; split <;> rfl
@[simp] theorem commit_build (m : Mask) (s : State) : (commit m s).build = s.build := by unfold commit; split <;> rfl
@[simp] theorem commit_waiting (m : Mask) (s : State) :
    (commit m s).waiting = s.waiting := by unfold commit; split <;> rfl
@[simp] theorem commit_inputs (m : Mask) (s : State) :
    (commit m s).inputs = s.inputs := by unfold commit; split <;> rfl
@[simp] theorem commit_busLog (m : Mask) (s : State) :
    (commit m s).busLog = s.busLog := by unfold commit; split <;> rfl
@[simp] theorem commit_respLog (m : Mask) (s : State) :
    (commit m s).respLog = s.respLog := by unfold commit; split <;> rfl
@[simp] theorem commit_chip (m : Mask) (s : State) : (commit m s).chip = s.chip := by unfold commit; split <;> rfl
theorem commit_cells (m : Mask) (s : State) :
    (commit m s).cells = if s.ncells < ncellsMax then s.cells.set s.ncells.toNat m else s.cells := by
  unfold commit; split <;> rfl
theorem commit_ncells (m : Mask) (s : State) :
    (commit m s).ncells = if s.ncells < ncellsMax then s.ncells + 1 else s.ncells := by
  unfold commit; split <;> rfl
theorem commit_ovf (m : Mask) (s : State) :
    (commit m s).ovf = if s.ncells < ncellsMax then s.ovf else true := by
  unfold commit; split <;> rfl

/-! ## flushPending -/

@[simp] theorem flushPending_st (s : State) : (flushPending s).st = s.st := by unfold flushPending; split <;> simp
@[simp] theorem flushPending_addr (s : State) :
    (flushPending s).addr = s.addr := by unfold flushPending; split <;> simp
@[simp] theorem flushPending_mapSel (s : State) :
    (flushPending s).mapSel = s.mapSel := by unfold flushPending; split <;> simp
@[simp] theorem flushPending_pend (s : State) :
    (flushPending s).pend = false := by
  unfold flushPending; split <;> simp_all
@[simp] theorem flushPending_txbuf (s : State) :
    (flushPending s).txbuf = s.txbuf := by unfold flushPending; split <;> simp
@[simp] theorem flushPending_respValid (s : State) :
    (flushPending s).respValid = s.respValid := by unfold flushPending; split <;> simp
@[simp] theorem flushPending_resp (s : State) :
    (flushPending s).resp = s.resp := by unfold flushPending; split <;> simp
@[simp] theorem flushPending_build (s : State) :
    (flushPending s).build = s.build := by unfold flushPending; split <;> simp
@[simp] theorem flushPending_waiting (s : State) :
    (flushPending s).waiting = s.waiting := by unfold flushPending; split <;> simp
@[simp] theorem flushPending_inputs (s : State) :
    (flushPending s).inputs = s.inputs := by unfold flushPending; split <;> simp
@[simp] theorem flushPending_busLog (s : State) :
    (flushPending s).busLog = s.busLog := by unfold flushPending; split <;> simp
@[simp] theorem flushPending_respLog (s : State) :
    (flushPending s).respLog = s.respLog := by unfold flushPending; split <;> simp
@[simp] theorem flushPending_chip (s : State) :
    (flushPending s).chip = s.chip := by unfold flushPending; split <;> simp
theorem flushPending_pmask (s : State) :
    (flushPending s).pmask = if s.pend then 0 else s.pmask := by
  unfold flushPending; split <;> rfl
theorem flushPending_cells (s : State) :
    (flushPending s).cells = if s.pend then (commit s.pmask s).cells else s.cells := by
  unfold flushPending; split <;> rfl
theorem flushPending_ncells (s : State) :
    (flushPending s).ncells = if s.pend then (commit s.pmask s).ncells else s.ncells := by
  unfold flushPending; split <;> rfl
theorem flushPending_ovf (s : State) :
    (flushPending s).ovf = if s.pend then (commit s.pmask s).ovf else s.ovf := by
  unfold flushPending; split <;> rfl

/-! ## endTransaction -/

@[simp] theorem endTransaction_st (r : BusAnswer) (rest : List Input) (s : State) :
    (endTransaction r rest s).st = s.st := by
  unfold endTransaction; split <;> rfl
@[simp] theorem endTransaction_addr (r : BusAnswer) (rest : List Input) (s : State) :
    (endTransaction r rest s).addr = s.addr := by
  unfold endTransaction; split <;> rfl
@[simp] theorem endTransaction_mapSel (r : BusAnswer) (rest : List Input) (s : State) :
    (endTransaction r rest s).mapSel = s.mapSel := by
  unfold endTransaction; split <;> rfl
@[simp] theorem endTransaction_cells (r : BusAnswer) (rest : List Input) (s : State) :
    (endTransaction r rest s).cells = s.cells := by
  unfold endTransaction; split <;> rfl
@[simp] theorem endTransaction_ncells (r : BusAnswer) (rest : List Input) (s : State) :
    (endTransaction r rest s).ncells = s.ncells := by
  unfold endTransaction; split <;> rfl
@[simp] theorem endTransaction_pend (r : BusAnswer) (rest : List Input) (s : State) :
    (endTransaction r rest s).pend = s.pend := by
  unfold endTransaction; split <;> rfl
@[simp] theorem endTransaction_pmask (r : BusAnswer) (rest : List Input) (s : State) :
    (endTransaction r rest s).pmask = s.pmask := by
  unfold endTransaction; split <;> rfl
@[simp] theorem endTransaction_ovf (r : BusAnswer) (rest : List Input) (s : State) :
    (endTransaction r rest s).ovf = s.ovf := by
  unfold endTransaction; split <;> rfl
@[simp] theorem endTransaction_txbuf (r : BusAnswer) (rest : List Input) (s : State) :
    (endTransaction r rest s).txbuf = s.txbuf := by
  unfold endTransaction; split <;> rfl
@[simp] theorem endTransaction_respValid (r : BusAnswer) (rest : List Input) (s : State) :
    (endTransaction r rest s).respValid = s.respValid := by
  unfold endTransaction; split <;> rfl
@[simp] theorem endTransaction_resp (r : BusAnswer) (rest : List Input) (s : State) :
    (endTransaction r rest s).resp = s.resp := by
  unfold endTransaction; split <;> rfl
@[simp] theorem endTransaction_build (r : BusAnswer) (rest : List Input) (s : State) :
    (endTransaction r rest s).build = s.build := by
  unfold endTransaction; split <;> rfl
@[simp] theorem endTransaction_waiting (r : BusAnswer) (rest : List Input) (s : State) :
    (endTransaction r rest s).waiting = s.waiting := by
  unfold endTransaction; split <;> rfl
@[simp] theorem endTransaction_inputs (r : BusAnswer) (rest : List Input) (s : State) :
    (endTransaction r rest s).inputs = rest := by
  unfold endTransaction; split <;> rfl
@[simp] theorem endTransaction_respLog (r : BusAnswer) (rest : List Input) (s : State) :
    (endTransaction r rest s).respLog = s.respLog := by
  unfold endTransaction; split <;> rfl

/-! ## resetBlock -/

@[simp] theorem resetBlock_st (s : State) : (resetBlock s).st = .uninit := rfl
@[simp] theorem resetBlock_addr (s : State) : (resetBlock s).addr = 0 := rfl
@[simp] theorem resetBlock_mapSel (s : State) : (resetBlock s).mapSel = false := rfl
@[simp] theorem resetBlock_cells (s : State) : (resetBlock s).cells = Cells.zero := rfl
@[simp] theorem resetBlock_ncells (s : State) : (resetBlock s).ncells = 0 := rfl
@[simp] theorem resetBlock_pend (s : State) : (resetBlock s).pend = false := rfl
@[simp] theorem resetBlock_pmask (s : State) : (resetBlock s).pmask = 0 := rfl
@[simp] theorem resetBlock_ovf (s : State) : (resetBlock s).ovf = false := rfl
@[simp] theorem resetBlock_txbuf (s : State) : (resetBlock s).txbuf = Frame.zero := rfl
@[simp] theorem resetBlock_respValid (s : State) : (resetBlock s).respValid = false := rfl
@[simp] theorem resetBlock_resp (s : State) : (resetBlock s).resp = 0 := rfl
@[simp] theorem resetBlock_build (s : State) : (resetBlock s).build = s.build := rfl
@[simp] theorem resetBlock_waiting (s : State) : (resetBlock s).waiting = s.waiting := rfl
@[simp] theorem resetBlock_inputs (s : State) : (resetBlock s).inputs = s.inputs := rfl
@[simp] theorem resetBlock_respLog (s : State) : (resetBlock s).respLog = s.respLog := rfl

end Sys2Proof.Machine
end

