-- ==== Sys2Proof/Laws/Ops.lean ====
section
/-! SUPPORT. For each shared operation, what it can do. -/

namespace Sys2Proof.Machine

/-! ## Cells -/

theorem Cells.get_set_same (c : Cells) (k : Nat) (m : Mask) (h : k ≤ 3) : (c.set k m).get k = m := by
  match k, h with
  | 0, _ | 1, _ | 2, _ | 3, _ => rfl

theorem Cells.get_set_other (c : Cells) {j k : Nat} (m : Mask) (h : j ≠ k) : (c.set k m).get j = c.get j := by
  match k with
  | 0 | 1 | 2 | 3 => rcases j with _ | _ | _ | _ | j <;> first | rfl | omega
  | k + 4 => rfl

@[simp] theorem Cells.get_zero (k : Nat) : Cells.zero.get k = 0 := by
  rcases k with _ | _ | _ | _ | k <;> rfl

/-! ## Responses -/

/-- The code a response carries. -/
theorem respCode_respond (code : BitVec 4) (data : BitVec 28) (s : State) :
    respCode (respond code data s).resp = code := respCode_append code data

/-- The data a response carries. -/
theorem respData_respond (code : BitVec 4) (data : BitVec 28) (s : State) :
    respData (respond code data s).resp = data := respData_append code data

/-- An error's response carries its kind's code, one of the four of R54. -/
theorem respCode_raise (k : ErrorKind) (s : State) : respCode (raise k s).resp = errorCode k :=
  respCode_respond _ _ _

theorem errorCode_le (k : ErrorKind) : errorCode k ≤ 4 := by cases k <;> simp [errorCode]

/-! ## The encoder -/

/-- A commit appends a cell and counts it, or sets the overflow and drops the mask; nothing else. -/
theorem commit_cases (m : Mask) (s : State) :
    (s.ncells.toNat < 4 ∧ commit m s = { s with cells := s.cells.set s.ncells.toNat m, ncells := s.ncells + 1 }) ∨
      (4 ≤ s.ncells.toNat ∧ commit m s = { s with ovf := true }) := by
  unfold commit
  by_cases h : s.ncells < ncellsMax
  · exact .inl ⟨by simpa [ncellsMax, BitVec.lt_def] using h, if_pos h⟩
  · exact .inr ⟨by simpa [ncellsMax, BitVec.lt_def] using h, if_neg h⟩

/-- A flush commits the pending mask and leaves none, or finds none and changes nothing. -/
theorem flushPending_cases (s : State) :
    (s.pend = true ∧ flushPending s = { commit s.pmask s with pend := false, pmask := 0 }) ∨
      (s.pend = false ∧ flushPending s = s) := by
  unfold flushPending
  cases s.pend <;> simp

/-! ## The outstanding transaction -/

/-- A transaction is outstanding exactly in a busy state, and then its row is the outstanding one. -/
theorem outstanding_cases (s : State) :
    (s.st.busy = false ∧ outstanding s = none ∧ outstandingInstr s = none) ∨
      (s.st.busy = true ∧ ∃ tx i, outstanding s = some tx ∧ outstandingInstr s = some i) := by
  unfold outstanding outstandingInstr
  cases s.st <;> simp [Ctrl.busy]

/-- An answer that ends a transaction logs it, and the chip follows. -/
theorem endTransaction_some {s : State} {tx : Transaction} (r : BusAnswer) (rest : List Input)
    (h : outstanding s = some tx) :
    endTransaction r rest s =
      { s with inputs := rest, busLog := s.busLog ++ [⟨tx, some r⟩], chip := s.chip.answered tx.bytes r } := by
  simp [endTransaction, h]

/-- The transactions issued so far, where one is outstanding. -/
theorem issued_some {s : State} {tx : Transaction} (h : outstanding s = some tx) :
    s.issued = s.busLog ++ [⟨tx, none⟩] := by simp [State.issued, h]

/-- The transactions issued so far, where none is outstanding. -/
theorem issued_none {s : State} (h : outstanding s = none) : s.issued = s.busLog := by simp [State.issued, h]

@[simp] theorem BusAnswer.fits_ok (b : Build) : BusAnswer.ok.fits b = true := rfl

@[simp] theorem BusAnswer.fits_err (b : Build) (e : BitVec 24) :
    (BusAnswer.err e).fits b = decide (e.toNat < 2 ^ b.busErrWidth) := rfl

/-- The answer step answers in four ways: the rule's effect, a refusal of a code too wide, a wait, or a refusal where the
transaction is not there. -/
theorem onAnswer_cases (here : Bool) (k : BusAnswer → State → State) (s : State) :
    (here = true ∧ ∃ r rest, s.inputs = .answer r :: rest ∧ r.fits s.build = true ∧
        onAnswer here k s = .next (k r (endTransaction r rest s))) ∨
      (here = true ∧ ∃ r rest, s.inputs = .answer r :: rest ∧ r.fits s.build = false ∧
        onAnswer here k s = .refused .wideErrorCode) ∨
      (here = true ∧ (∀ r rest, s.inputs ≠ .answer r :: rest) ∧ onAnswer here k s = .next s) ∨
      (here = false ∧ onAnswer here k s = .refused .notOutstanding) := by
  unfold onAnswer
  cases here
  · simp
  · rcases h : s.inputs with _ | ⟨_ | _ | r | _, rest⟩ <;> simp

/-- The chip's RAM keeps its canonical form whatever the chip has been told. -/
theorem Chip.told_ram_wf {c : Chip} (bytes : List Byte) (h : c.ram.wf = true) : (c.told bytes).ram.wf = true := by
  rcases bytes with _ | ⟨b, _ | ⟨b', data⟩⟩
  · exact h
  · simp only [Chip.told]; split <;> [exact h; (split <;> [exact h; (split <;> exact h)])]
  · exact Memory.writeBytes_wf 0 _ h

theorem Chip.mayHaveTold_ram_wf {c : Chip} (bytes : List Byte) (h : c.ram.wf = true) :
    (c.mayHaveTold bytes).ram.wf = true := by
  rcases bytes with _ | ⟨b, _ | ⟨b', data⟩⟩
  · exact h
  · simp only [Chip.mayHaveTold]; split <;> [exact h; (split <;> [exact h; (split <;> exact h)])]
  · exact Memory.forgetBytes_wf 0 _ h

/-! ## The host -/

/-- A take finds no response and is refused, takes the waiting one, or meets a code no rule produces. -/
theorem takeResponse_cases (s : State) :
    (s.respValid = false ∧ takeResponse s = .refused .noResponseToTake) ∨
      (s.respValid = true ∧ respCode s.resp ≤ 4 ∧
        takeResponse s = .next { s with respValid := false, respLog := s.respLog ++ [s.resp] }) ∨
      (s.respValid = true ∧ 4 < respCode s.resp ∧ takeResponse s = .fault (.unknownResponseCode (respCode s.resp))) := by
  have hk : errorCode .illegalCommand = 4 := rfl
  unfold takeResponse
  rw [hk]
  by_cases hv : s.respValid = true
  · by_cases hc : respCode s.resp ≤ 4
    · exact .inr (.inl ⟨hv, hc, by rw [if_neg (by simp [hv]), if_pos hc]⟩)
    · exact .inr (.inr ⟨hv, BitVec.not_le.mp hc, by rw [if_neg (by simp [hv]), if_neg hc]⟩)
  · exact .inl ⟨by simpa using hv, if_pos (by simpa using hv)⟩

/-- A take that answers a next state frees the response register and records the word. -/
theorem takeResponse_next {s t : State} (h : takeResponse s = .next t) :
    s.respValid = true ∧ respCode s.resp ≤ 4 ∧
      t = { s with respValid := false, respLog := s.respLog ++ [s.resp] } := by
  rcases takeResponse_cases s with ⟨-, e⟩ | ⟨hv, hc, e⟩ | ⟨-, -, e⟩ <;> rw [e] at h <;> cases h
  exact ⟨hv, hc, rfl⟩

end Sys2Proof.Machine
end

