-- ==== Sys2Proof/Laws/PerInstr.lean ====
section
/-! SUPPORT. Facts about every instruction as syntax, one lemma per constructor. Family `TableRow`: the code of an
instruction shows the fixed bits of its row in spec/opcode_table.json. -/

namespace Sys2Proof.Laws.TableRow

/-- The bits a row's mask applies to: the command word, or the first byte sent. -/
def bits (c : Code) : Word :=
  match c with
  | .command w => w
  | .wire [] => 0
  | .wire (b :: _) => b.setWidth 32

/-- The row's mask and match, as the opcode table has them. -/
def row (i : Instr) : Word × Word :=
  match i with
  | .nop => (0xF0000000, 0x00000000)
  | .init _ _ => (0xF0000000, 0x10000000)
  | .char _ => (0xF0000000, 0x20000000)
  | .mask _ => (0xF0000000, 0x30000000)
  | .showText => (0xF0000000, 0x40000000)
  | .lookup _ => (0xF0000000, 0x50000000)
  | .clear => (0xF0000000, 0x60000000)
  | .status => (0xF0000000, 0x70000000)
  | .reserved => (0x80000000, 0x80000000)
  | .busOscOn => (0xFF, 0x21)
  | .busDispOn => (0xFF, 0x81)
  | .busBrightness => (0xFF, 0xEF)
  | .busFrame _ => (0xFF, 0x00)

/-- A well-formed instruction's code shows its row's fixed bits. -/
def Statement (i : Instr) : Prop := i.wf true = true → bits (encode i) &&& (row i).1 = (row i).2

/-- The mask of the opcode field has the four high bits. -/
theorem opcode_mask : ∀ j : Fin 32, (0xF0000000#32).getLsbD j = decide (28 ≤ j.val) := by decide

/-- The opcode field of a word whose four high bits are given. -/
theorem high_bits (op : BitVec 4) (rest : BitVec 28) : (op ++ rest : Word) &&& 0xF0000000#32 = op ++ 0#28 := by
  apply BitVec.eq_of_getLsbD_eq
  intro i hi
  rw [BitVec.getLsbD_and, opcode_mask ⟨i, hi⟩, BitVec.getLsbD_append, BitVec.getLsbD_append]
  by_cases h : i < 28
  · simp [h]
  · simp [h]; omega

theorem nop : Statement .nop := fun _ => rfl
theorem init (a : DevAddr) (c : Bool) : Statement (.init a c) := fun _ => by
  show formatFI 0x1 c a &&& 0xF0000000#32 = 0x10000000
  rw [formatFI, BitVec.append_assoc, BitVec.append_assoc]
  exact high_bits 0x1 _
theorem char (cp : CodePoint) : Statement (.char cp) := fun _ => by
  show formatFC 0x2 cp &&& 0xF0000000#32 = 0x20000000
  rw [formatFC, BitVec.append_assoc]
  exact high_bits 0x2 _
theorem mask (m : Mask) : Statement (.mask m) := fun _ => by
  show formatFM 0x3 m &&& 0xF0000000#32 = 0x30000000
  rw [formatFM, BitVec.append_assoc]
  exact high_bits 0x3 _
theorem showText : Statement .showText := fun _ => rfl
theorem lookup (cp : CodePoint) : Statement (.lookup cp) := fun _ => by
  show formatFC 0x5 cp &&& 0xF0000000#32 = 0x50000000
  rw [formatFC, BitVec.append_assoc]
  exact high_bits 0x5 _
theorem clear : Statement .clear := fun _ => rfl
theorem status : Statement .status := fun _ => rfl
theorem reserved : Statement .reserved := fun _ => rfl
theorem busOscOn : Statement .busOscOn := fun _ => rfl
theorem busDispOn : Statement .busDispOn := fun _ => rfl
theorem busBrightness : Statement .busBrightness := fun _ => rfl
theorem busFrame (f : Frame) : Statement (.busFrame f) := fun h => by
  have hb : f.b0 = 0 := by simpa [Instr.wf, Frame.wf, Machine.ramCmd] using h
  simp [bits, encode, Frame.toList, row, hb]

end Sys2Proof.Laws.TableRow
end

