-- ==== Sys2Proof/Laws/Step.lean ====
section
/-! SUPPORT. What one step can be: every case of Machine/Port.lean, said once, and what runs in it. -/

namespace Sys2Proof.Machine

@[simp] theorem Ctrl.busy_of_idle {c : Ctrl} (h : c.idle = true) : c.busy = false := by
  cases c <;> simp_all [Ctrl.idle, Ctrl.busy]

theorem portReady_iff (s : State) : s.portReady = true ↔ s.st.idle = true ∧ s.respValid = false := by
  simp [State.portReady]

theorem step_run {s t : State} {i : Instr} (h : nextMove s = .run i t) : step s = exec i t := by simp [step, h]

theorem step_done {s : State} {o : Host.Outcome State Fault Refusal} (h : nextMove s = .done o) : step s = o := by
  simp [step, h]

/-- A reset that stands first is the next step, whatever the state. -/
theorem nextMove_reset {s : State} {rest : List Input} (h : s.inputs = .reset :: rest) :
    nextMove s = .done (.next (resetBlock { s with inputs := rest })) := by
  simp [nextMove, h]

/-- With no reset first and a legal controller value, the port's readiness decides the next step. -/
theorem nextMove_eq {s : State} (hr : ∀ rest, s.inputs ≠ .reset :: rest) (h7 : s.st ≠ .code7) :
    nextMove s = if s.portReady then moveReady s else moveNotReady s := by
  unfold nextMove
  rcases h : s.inputs with _ | ⟨_ | _ | _ | _, rest⟩ <;> simp_all

/-- What the next step can be, case by case. -/
inductive MoveOf (s : State) : Move → Prop where
  | reset (rest : List Input) (hi : s.inputs = .reset :: rest) :
      MoveOf s (.done (.next (resetBlock { s with inputs := rest })))
  | unreachable (hr : ∀ rest, s.inputs ≠ .reset :: rest) (h7 : s.st = .code7) :
      MoveOf s (.done (.refused .unreachableController))
  | acceptWaiting (w : Word) (ws : List Word) (hr : ∀ rest, s.inputs ≠ .reset :: rest) (hp : s.portReady = true)
      (hw : s.waiting = w :: ws) : MoveOf s (.run (decodeCommand s.build.hasCustomMap w) { s with waiting := ws })
  | acceptOffer (w : Word) (rest : List Input) (hp : s.portReady = true) (hw : s.waiting = [])
      (hi : s.inputs = .offer w :: rest) :
      MoveOf s (.run (decodeCommand s.build.hasCustomMap w) { s with inputs := rest })
  | offerWaits (w : Word) (rest : List Input) (hp : s.portReady = false) (hi : s.inputs = .offer w :: rest) :
      MoveOf s (.done (.next { s with inputs := rest, waiting := s.waiting ++ [w] }))
  | take (rest : List Input) (hw : s.portReady = true → s.waiting = []) (hi : s.inputs = .take :: rest) :
      MoveOf s (.done (takeResponse { s with inputs := rest }))
  | answer (r : BusAnswer) (rest : List Input) (i : Instr) (hb : s.st.busy = true) (hi : s.inputs = .answer r :: rest)
      (ho : outstandingInstr s = some i) : MoveOf s (.run i s)
  | usedUpAnswer (r : BusAnswer) (rest : List Input) (hb : s.st.busy = false) (hw : s.portReady = true → s.waiting = [])
      (hi : s.inputs = .answer r :: rest) : MoveOf s (.done (.next { s with inputs := rest }))
  | quiet (hi : s.inputs = []) (hw : s.portReady = true → s.waiting = []) : MoveOf s (.done (.next s))

/-- The next step is one of these cases. -/
theorem nextMove_cases (s : State) : MoveOf s (nextMove s) := by
  by_cases hr : ∃ rest, s.inputs = .reset :: rest
  · obtain ⟨rest, h⟩ := hr
    rw [nextMove_reset h]
    exact .reset rest h
  have hr' : ∀ rest, s.inputs ≠ .reset :: rest := fun rest h => hr ⟨rest, h⟩
  by_cases h7 : s.st = .code7
  · have : nextMove s = .done (.refused .unreachableController) := by
      unfold nextMove
      rcases h : s.inputs with _ | ⟨_ | _ | _ | _, rest⟩ <;> simp_all
    rw [this]
    exact .unreachable hr' h7
  rw [nextMove_eq hr' h7]
  by_cases hp : s.portReady = true
  · rw [if_pos hp]
    unfold moveReady
    obtain ⟨hidle, hv⟩ := (portReady_iff s).mp hp
    split
    · next w ws hw => exact .acceptWaiting w ws hr' hp hw
    · next w rest hw hi => exact .acceptOffer w rest hp hw hi
    · next rest hw hi => exact .take rest (fun _ => hw) hi
    · next r rest hw hi => exact .usedUpAnswer r rest (Ctrl.busy_of_idle hidle) (fun _ => hw) hi
    · next rest _ hi => exact absurd hi (hr' rest)
    · next hw hi => exact .quiet hi (fun _ => hw)
  · rw [if_neg hp]
    have hpf : s.portReady = false := by simpa using hp
    unfold moveNotReady
    split
    · next w rest hi => exact .offerWaits w rest hpf hi
    · next rest hi => exact .take rest (fun h => absurd h hp) hi
    · next r rest hi =>
      split
      · next i ho =>
        rcases outstanding_cases s with ⟨-, -, h⟩ | ⟨hb, -⟩
        · rw [h] at ho; cases ho
        · exact .answer r rest i hb hi ho
      · next ho =>
        rcases outstanding_cases s with ⟨hb, -⟩ | ⟨-, tx, i, -, h⟩
        · exact .usedUpAnswer r rest hb (fun h => absurd h hp) hi
        · rw [h] at ho; cases ho
    · next rest hi => exact absurd hi (hr' rest)
    · next hi => exact .quiet hi (fun h => absurd h hp)

/-- A host command; the other instructions are answers to bus transactions. -/
def hostCommand (i : Instr) : Bool :=
  match i with
  | .nop | .init _ _ | .char _ | .mask _ | .showText | .lookup _ | .clear | .status | .reserved => true
  | .busOscOn | .busDispOn | .busBrightness | .busFrame _ => false

theorem decodeCommand_hostCommand (h : Bool) (w : Word) : hostCommand (decodeCommand h w) = true := by
  unfold decodeCommand
  repeat' split
  all_goals rfl

/-- A host command always completes. -/
theorem exec_hostCommand_completes (i : Instr) (s : State) (hc : hostCommand i = true) : ∃ t, exec i s = .next t := by
  cases i <;> simp only [hostCommand, Bool.false_eq_true] at hc <;>
    simp only [exec, execNop, execInit, execChar, execMask, execShowText, execLookup, execClear, execStatus,
      execReserved] <;> (repeat' split) <;> exact ⟨_, rfl⟩

/-- A host command changes nothing around the block. -/
theorem exec_hostCommand_frame {i : Instr} {s t : State} (hc : hostCommand i = true) (h : exec i s = .next t) :
    t.build = s.build ∧ t.waiting = s.waiting ∧ t.inputs = s.inputs ∧ t.busLog = s.busLog ∧ t.respLog = s.respLog ∧
      t.chip = s.chip := by
  cases i <;> simp only [hostCommand, Bool.false_eq_true] at hc <;>
    simp only [exec, execNop, execInit, execChar, execMask, execShowText, execLookup, execClear, execStatus,
      execReserved] at h <;> (repeat' split at h) <;> cases h <;> simp

/-- The rule of the outstanding transaction: what its answer does to the registers. -/
def answerRule (c : Ctrl) (r : BusAnswer) (s : State) : State :=
  match c with
  | .initOsc => oscAnswered r s
  | .initDisp => dispAnswered r s
  | .initBrt => brtAnswered r s
  | .frameTx => frameAnswered r s
  | .uninit | .ready | .failed | .code7 => s

/-- An answered transaction runs the rule of its busy state on the state in which the transaction has ended, where the answer
is one the bus can give. -/
theorem exec_answered {s : State} {i : Instr} {r : BusAnswer} {rest : List Input} (ho : outstandingInstr s = some i)
    (hi : s.inputs = .answer r :: rest) :
    exec i s = if r.fits s.build then .next (answerRule s.st r (endTransaction r rest s)) else .refused .wideErrorCode := by
  unfold outstandingInstr at ho
  cases hst : s.st <;> simp only [hst, Option.some.injEq, reduceCtorEq] at ho <;> subst ho <;>
    simp [exec, execBusOscOn, execBusDispOn, execBusBrightness, execBusFrame, onAnswer, hst, hi, answerRule]

/-- The answer's rule writes `st`, `resp` and `resp_valid` only. -/
theorem answerRule_frame (c : Ctrl) (r : BusAnswer) (s : State) :
    answerRule c r s =
      { s with
        st := (answerRule c r s).st, resp := (answerRule c r s).resp, respValid := (answerRule c r s).respValid } := by
  cases c <;> cases r <;> rfl

end Sys2Proof.Machine
end

