-- ==== Sys2Proof/Laws/StepCases.lean ====
section
/-! SUPPORT. What a step that answers a next state has done, in the words of Safety.lean: five cases, each with what it
leaves and what the next command was. -/

namespace Sys2Proof

open Machine

/-- A busy state's port is not ready. -/
theorem portReady_of_busy {s : State} (h : s.st.busy = true) : s.portReady = false := by
  cases hs : s.st <;> simp_all [State.portReady, Ctrl.idle, Ctrl.busy]

theorem resetNext_eq_false {s : State} (h : ∀ rest, s.inputs ≠ .reset :: rest) : resetNext s = false := by
  unfold resetNext
  split <;> simp_all

/-- No command is accepted in a step that resets or finds the port not ready. -/
theorem nextCommand_eq_none {s : State} (h : resetNext s = true ∨ s.portReady = false) : nextCommand s = none := by
  unfold nextCommand resetNext at *
  split <;> simp_all

/-- The five ways a step reaches its next state. -/
inductive StepCase (s t : State) : Prop
  | reset (rest : List Input) (hi : s.inputs = .reset :: rest) (hr : resetNext s = true) (hn : nextCommand s = none)
      (ht : t = resetBlock { s with inputs := rest })
  | command (w : Word) (u : State) (hp : s.portReady = true) (hr : resetNext s = false)
      (hn : nextCommand s = some (decodeCommand s.build.hasCustomMap w)) (hw : pendingWords s = w :: pendingWords u)
      (hu : u = { s with waiting := u.waiting, inputs := u.inputs })
      (he : exec (decodeCommand s.build.hasCustomMap w) u = .next t)
  | surroundings (hr : resetNext s = false) (hn : nextCommand s = none) (hw : pendingWords t = pendingWords s)
      (ha : s.st.busy = false ∨ answerNext s = false) (ht : t = { s with waiting := t.waiting, inputs := t.inputs })
  | take (rest : List Input) (hi : s.inputs = .take :: rest) (hr : resetNext s = false) (hn : nextCommand s = none)
      (hv : s.respValid = true) (hc : respCode s.resp ≤ 4)
      (ht : t = { s with inputs := rest, respValid := false, respLog := s.respLog ++ [s.resp] })
  | answer (r : BusAnswer) (rest : List Input) (i : Instr) (hi : s.inputs = .answer r :: rest) (hr : resetNext s = false)
      (hn : nextCommand s = none) (hb : s.st.busy = true) (ho : outstandingInstr s = some i) (hf : r.fits s.build = true)
      (ht : t = answerRule s.st r (endTransaction r rest s))

/-- A step that answers a next state is one of these cases. -/
theorem step_cases {s t : State} (h : step s = .next t) : StepCase s t := by
  unfold step at h
  have hc := nextMove_cases s
  generalize nextMove s = mv at h hc
  cases hc with
  | reset rest hi =>
    cases h
    exact .reset rest hi (by simp [resetNext, hi]) (nextCommand_eq_none (.inl (by simp [resetNext, hi]))) rfl
  | unreachable => cases h
  | acceptWaiting w ws hr hp hw =>
    refine .command w _ hp (resetNext_eq_false hr) ?_ (by simp [pendingWords, hw]) rfl h
    unfold nextCommand
    split
    · next hi => exact absurd hi (hr _)
    · simp [hp, hw]
  | acceptOffer w rest hp hw hi =>
    exact .command w _ hp (by simp [resetNext, hi]) (by simp [nextCommand, hi, hp, hw]) (by simp [pendingWords, hw, hi])
      rfl h
  | offerWaits w rest hp hi =>
    cases h
    exact .surroundings (by simp [resetNext, hi]) (nextCommand_eq_none (.inr hp)) (by simp [pendingWords, hi])
      (by simp [answerNext, hi]) rfl
  | take rest hw hi =>
    obtain ⟨hv, hc, ht⟩ := takeResponse_next h
    replace hv : s.respValid = true := hv
    exact .take rest hi (by simp [resetNext, hi]) (nextCommand_eq_none (.inr (by simp [State.portReady, hv]))) hv hc ht
  | answer r rest i hb hi ho =>
    replace h : exec i s = .next t := h
    rw [exec_answered ho hi] at h
    split at h <;> cases h
    next hf =>
    exact .answer r rest i hi (by simp [resetNext, hi]) (nextCommand_eq_none (.inr (portReady_of_busy hb))) hb ho hf rfl
  | usedUpAnswer r rest hb hw hi =>
    cases h
    exact .surroundings (by simp [resetNext, hi]) (by simp [nextCommand, hi]; intro h; simp [hw h])
      (by simp [pendingWords, hi]) (by simp [hb]) rfl
  | quiet hi hw =>
    cases h
    exact .surroundings (by simp [resetNext, hi]) (by simp [nextCommand, hi]; intro h; simp [hw h]) rfl
      (by simp [answerNext, hi]) rfl

end Sys2Proof
end

