-- ==== Sys2Proof/Tests/Slice0.lean ====
section
/-! SUPPORT. Tests: words and bytes written out from the encodings of spec/30_encoding.md, the vectors of
spec/95_test_vectors.md, and for each statement with hypotheses a state and operands that meet them. -/

namespace Sys2Proof.Tests

open Machine

/-! ## Fixtures -/

/-- The fixture map TM of 95_test_vectors.md. -/
def tm : Build :=
  { defaultTable := []
    customMap := some [(0x41, 0x00F7), (0x42, 0x128F), (0x43, 0x0039), (0x44, 0x120F), (0x30, 0x0C3F), (0x31, 0x0006),
      (0x38, 0x00FF)]
    busErrIndex := 23 }

/-- A configuration with no custom map whose table starts with a mask for the space. -/
def plain : Build := { defaultTable := [0x0001], customMap := none, busErrIndex := 0 }

/-- A block built as `b` in the controller state `c` with an empty encoder, the address 0x70, and `ins` to come. -/
def block (b : Build) (c : Ctrl) (ins : List Input) : State :=
  { State.reset with build := b, st := c, addr := 0x70, mapSel := b.hasCustomMap, inputs := ins }

/-- A READY block with TM bound. -/
def ready : State := block tm .ready []

/-- A READY block with a response waiting that the host takes next. -/
def answered : State := { ready with respValid := true, resp := 0x00000000, inputs := [.take] }

/-- The state an outcome goes on with. -/
def after (o : Host.Outcome State Fault Refusal) : Option State :=
  match o with
  | .next t => some t
  | .fault _ => none
  | .refused _ => none

/-- The response after running one instruction. -/
def response (i : Instr) (s : State) : Option Word := (after (exec i s)).map (·.resp)

/-- The encoder after running one instruction: its four cells, `ncells`, `pend`, `pmask`, `ovf`. -/
def encoder (i : Instr) (s : State) : Option (List Mask × BitVec 3 × Bool × Mask × Bool) :=
  (after (exec i s)).map (fun t => (t.cells.toList, t.ncells, t.pend, t.pmask, t.ovf))

/-! ## WellFormed -/

theorem test_custom_init_needs_a_map : Instr.wf false (.init 0x70 true) = false := by decide

theorem test_custom_init_with_a_map : Instr.wf true (.init 0x70 true) = true := by decide

theorem test_frame_starts_with_the_select_byte :
    Instr.wf true (.busFrame ⟨0x01, 0, 0, 0, 0, 0, 0, 0, 0⟩) = false ∧
      Instr.wf true (.busFrame ⟨0x00, 0, 0, 0, 0, 0, 0, 0, 0⟩) = true := by decide

/-! ## Decoding (95_test_vectors.md W1 to W19; 30_encoding.md R56) -/

theorem test_decode_nop : decodeCommand true 0x00000000 = .nop ∧ decodeCommand true 0x0FFFFFFF = .nop := by decide

theorem test_decode_init :
    decodeCommand true 0x10000070 = .init 0x70 false ∧ decodeCommand true 0x100000F0 = .init 0x70 true ∧
      decodeCommand true 0x1FFFFF7F = .init 0x7F false ∧ decodeCommand true 0x1FFFFFFF = .init 0x7F true ∧
      decodeCommand true 0x10000000 = .init 0x00 false := by decide

theorem test_decode_custom_init_without_a_map :
    decodeCommand false 0x100000F0 = .reserved ∧ decodeCommand false 0x10000070 = .init 0x70 false := by decide

theorem test_decode_char :
    decodeCommand true 0x20000041 = .char 0x41 ∧ decodeCommand true 0x2FE00041 = .char 0x41 ∧
      decodeCommand true 0x2000002E = .char 0x2E ∧ decodeCommand true 0x201FFFFF = .char 0x1FFFFF := by decide

theorem test_decode_mask :
    decodeCommand true 0x30001234 = .mask 0x1234 ∧ decodeCommand true 0x3FFF1234 = .mask 0x1234 := by decide

theorem test_decode_show : decodeCommand true 0x40000000 = .showText := by decide

theorem test_decode_lookup : decodeCommand true 0x5FE00042 = .lookup 0x42 := by decide

theorem test_decode_clear : decodeCommand true 0x60000000 = .clear := by decide

theorem test_decode_status : decodeCommand true 0x70000000 = .status := by decide

theorem test_decode_reserved :
    decodeCommand true 0x80000000 = .reserved ∧ decodeCommand true 0xFFFFFFFF = .reserved := by decide

theorem test_decode_wire :
    decodeWire [0b00100001] = .ok .busOscOn ∧ decodeWire [0b10000001] = .ok .busDispOn ∧
      decodeWire [0b11101111] = .ok .busBrightness ∧
      decodeWire [0x00, 0xF7, 0x00, 0x8F, 0x52, 0x39, 0x00, 0x0F, 0x12] =
        .ok (.busFrame ⟨0x00, 0xF7, 0x00, 0x8F, 0x52, 0x39, 0x00, 0x0F, 0x12⟩) := by decide

theorem test_decode_wire_rejects :
    decodeWire [0xEE] = .error (.unknownBringUpByte 0xEE) ∧
      decodeWire [0x01, 0, 0, 0, 0, 0, 0, 0, 0] = .error (.unknownRegisterSelect 0x01) ∧
      decodeWire [] = .error (.wrongLength 0) ∧ decodeWire [0x00, 0x00] = .error (.wrongLength 2) := by decide

/-- 30_encoding.md R60: the words the commands are written as. -/
theorem test_encode_words :
    encode (.init 0x70 true) = .command 0x100000F0 ∧ encode (.char 0x41) = .command 0x20000041 ∧
      encode (.mask 0x1234) = .command 0x30001234 ∧ encode (.lookup 0x42) = .command 0x50000042 ∧
      encode .status = .command 0x70000000 := by decide

/-- The bits of a table row, the first byte lowest. -/
theorem test_table_words :
    decodeTableWord 32 0x20000041 = some (.char 0x41) ∧ decodeTableWord 8 0x21 = some .busOscOn ∧
      decodeTableWord 8 0xEF = some .busBrightness ∧
      decodeTableWord 72 0x120F0039528F00F700 =
        some (.busFrame ⟨0x00, 0xF7, 0x00, 0x8F, 0x52, 0x39, 0x00, 0x0F, 0x12⟩) ∧ decodeTableWord 8 0x22 = none := by
  decide

/-- A table row's instruction is what the first step runs: `CHAR 'A'` answers NOT_READY, and 0x21 answered OK goes on to the
second write. -/
theorem test_fetch_word :
    (after (step (State.reset.withFetchWord 32 0x20000041))).map (·.resp) = some 0x30000000 ∧
      (after (step (State.reset.withFetchWord 8 0x21))).map (·.st) = some .initDisp := by decide

/-! ## The literal decoder (95_test_vectors.md L1 to L12) -/

theorem test_literals :
    litDecode "0000000000000000".toList = .ok 0x0000 ∧ litDecode "1111111111111111".toList = .ok 0xFFFF ∧
      litDecode "1000000000000000".toList = .ok 0x8000 ∧ litDecode "0000000000000001".toList = .ok 0x0001 ∧
      litDecode "0100000000000000".toList = .ok 0x4000 ∧ litDecode "0001001010001111".toList = .ok 0x128F := by decide

theorem test_literals_refused :
    litDecode "000000000000000".toList = .error .invalidCharacterLiteral ∧
      litDecode "00000000000000000".toList = .error .invalidCharacterLiteral ∧
      litDecode "000000000000000x".toList = .error .invalidCharacterLiteral ∧
      litDecode "0000000 00000000".toList = .error .invalidCharacterLiteral ∧
      litDecode "".toList = .error .invalidCharacterLiteral ∧
      litDecode "0000000000000002".toList = .error .invalidCharacterLiteral := by decide

theorem test_build_refuses_a_bad_literal :
    buildFromLiterals [] (some [(0x41, "0000000000000002".toList)]) 0 = .error .invalidCharacterLiteral := by decide

/-- Log entry 18: the literal's error comes before a key's. -/
theorem test_build_reports_the_literal_before_the_key :
    buildFromLiterals [] (some [(0x110000, "1".toList)]) 0 = .error .invalidCharacterLiteral := by decide

theorem test_build_refuses_a_key_twice :
    buildFromLiterals [] (some [(0x41, "0000000000000001".toList), (0x41, "0000000000000001".toList)]) 0 =
      .error .invalidKey := by decide

/-! ## Instructions (95_test_vectors.md 2.2 to 2.7) -/

/-- C1. -/
theorem test_nop : response .nop (block tm .failed []) = some 0x00000000 := by decide

/-- E25: NOP does not break the look-ahead. -/
theorem test_nop_keeps_the_pending_character :
    encoder .nop { ready with pend := true, pmask := 0x00F7 } = some ([0, 0, 0, 0], 0, true, 0x00F7, false) := by decide

/-- I6: the address, the map and the state of `0x1FFFFFFF`. -/
theorem test_init :
    (after (exec (.init 0x7F true) (block tm .uninit []))).map (fun t => (t.addr, t.mapSel, t.st)) =
      some (0x7F, true, .initOsc) := by decide

/-- I5. -/
theorem test_init_custom_without_a_map :
    (after (exec (.init 0x55 true) (block plain .ready []))).map (fun t => (t.resp, t.addr, t.mapSel, t.st)) =
      some (0x40000000, 0x70, false, .ready) := by decide

/-- E4: the second period decorates the first. -/
theorem test_char_period :
    encoder (.char 0x2E) { ready with pend := true, pmask := 0x0000 } =
      some ([0x4000, 0, 0, 0], 1, false, 0x0000, false) := by decide

/-- E14: the sixth character sets the overflow. -/
theorem test_char_overflow :
    encoder (.char 0x46) { ready with cells := ⟨0x00F7, 0x128F, 0x0039, 0x120F⟩, ncells := 4, pend := true } =
      some ([0x00F7, 0x128F, 0x0039, 0x120F], 4, true, 0x0000, true) := by decide

/-- E20: a MASK with a character pending commits two cells. -/
theorem test_mask_commits_two :
    encoder (.mask 0x0005) { ready with cells := ⟨1, 2, 3, 0⟩, ncells := 3, pend := true, pmask := 0x00F7 } =
      some ([1, 2, 3, 0x00F7], 4, false, 0x0000, true) := by decide

/-- E22. -/
theorem test_mask_not_ready : response (.mask 0x1234) (block tm .uninit []) = some 0x30000000 := by decide

/-- E2 and R95: the frame of "A." with its bytes low first. -/
theorem test_show_frame :
    (after (exec .showText { ready with cells := ⟨0x40F7, 0, 0, 0⟩, ncells := 1 })).bind outstanding =
      some ⟨.raw, 0x70, [0x00, 0xF7, 0x40, 0, 0, 0, 0, 0, 0]⟩ := by decide

/-- E12: the flush makes the fifth cell. -/
theorem test_show_overlong :
    response .showText { ready with cells := ⟨0x00F7, 0x128F, 0x0039, 0x120F⟩, ncells := 4, pend := true } =
      some 0x20000000 := by decide

/-- K7, K9, K11. -/
theorem test_lookup_custom :
    response (.lookup 0x42) ready = some 0x0000128F ∧ response (.lookup 0x61) ready = some 0x00000000 ∧
      response (.lookup 0x1FFFFF) ready = some 0x00000000 := by decide

/-- K1, K2, K4, K5, and the first entry of the table. -/
theorem test_lookup_default :
    response (.lookup 0x07) (block plain .uninit []) = some 0x00000000 ∧
      response (.lookup 0x2E) (block plain .uninit []) = some 0x00000000 ∧
      response (.lookup 0x7F) (block plain .uninit []) = some 0x00000000 ∧
      response (.lookup 0x20) (block plain .uninit []) = some 0x00000001 := by decide

/-- E24. -/
theorem test_clear :
    encoder .clear { ready with cells := ⟨1, 0, 0, 0⟩, ncells := 1, pend := true, pmask := 0x00F7 } =
      some ([0, 0, 0, 0], 0, false, 0x0000, false) := by decide

/-- C4. -/
theorem test_status_ready : response .status ready = some 0x0000F004 := by decide

/-- E14's status word. -/
theorem test_status_fields :
    response .status { ready with ncells := 4, pend := true, ovf := true } = some 0x0000F0E4 := by decide

/-- W18. -/
theorem test_reserved : response .reserved ready = some 0x40000000 := by decide

/-- I2: the first write fails. -/
theorem test_osc_error :
    (after (exec .busOscOn (block tm .initOsc [.answer (.err 0x05)]))).map (fun t => (t.st, t.resp)) =
      some (.failed, 0x10000005) := by decide

/-- I3: the second write fails. -/
theorem test_disp_error :
    (after (exec .busDispOn (block tm .initDisp [.answer (.err 0x03)]))).map (fun t => (t.st, t.resp)) =
      some (.failed, 0x14000003) := by decide

/-- I4 and I1: the third write fails, or completes the bring-up. -/
theorem test_brightness :
    (after (exec .busBrightness (block tm .initBrt [.answer (.err 0xFFFFFF)]))).map (fun t => (t.st, t.resp)) =
        some (.failed, 0x18FFFFFF) ∧
      (after (exec .busBrightness (block tm .initBrt [.answer .ok]))).map (fun t => (t.st, t.resp)) =
        some (.ready, 0x00000000) := by decide

/-- F3: a failed frame leaves READY. -/
theorem test_frame_error :
    (after (exec (.busFrame Frame.zero) (block tm .frameTx [.answer (.err 0xABCDEF)]))).map (fun t => (t.st, t.resp)) =
      some (.ready, 0x1CABCDEF) := by decide

/-- R55: `BUS_ERR_W` = 1 admits the codes 0 and 1 only. -/
theorem test_code_wider_than_the_bus :
    (step (block plain .initOsc [.answer (.err 2)]) matches .refused .wideErrorCode) = true ∧
      (after (step (block plain .initOsc [.answer (.err 1)]))).map (·.resp) = some 0x10000001 := by decide

/-- R106: no take while no response waits. -/
theorem test_take_with_no_response :
    (step (block tm .ready [.take]) matches .refused .noResponseToTake) = true ∧
      (after (step answered)).map (·.respLog) = some [0x00000000] := by decide

/-- R123: the chip's RAM byte 0 is frame byte 1. -/
theorem test_frame_reaches_the_ram :
    (after (exec (.busFrame ⟨0, 0x34, 0x12, 0, 0, 0, 0, 0, 0xAB⟩)
        { block tm .frameTx [.answer .ok] with txbuf := ⟨0, 0x34, 0x12, 0, 0, 0, 0, 0, 0xAB⟩ })).map
      (fun t => (t.chip.ram.read 0, t.chip.ram.read 7, t.chip.ram.read 8)) =
      some (some 0x34, some 0xAB, none) := by decide

/-- R92: texts under a map that gives 'A' the mask 1 and every other character 0. -/
theorem test_encode_text :
    encodeText (fun c => if c = 0x41 then 1 else 0) [0x2E, 0x2E, 0x2E] = some [0x4000, 0x0000] ∧
      encodeText (fun c => if c = 0x41 then 1 else 0) [0x41, 0x20, 0x2E] = some [0x0001, 0x4000] ∧
      encodeText (fun c => if c = 0x41 then 1 else 0) [0x2E, 0x41] = some [0x0000, 0x0001] ∧
      encodeText (fun c => if c = 0x41 then 1 else 0) [0x41, 0x41, 0x41, 0x41, 0x2E, 0x2E] = none := by decide

/-- S7 and R99: `SHOWMASKS 0x1234, 0xABCD`, and E1: `TEXT "A"`. -/
theorem test_pseudo_commands :
    ((after (feed (showMasksCommands [0x1234, 0xABCD]) ready)).bind outstanding).map (·.bytes) =
        some [0x00, 0x34, 0x12, 0xCD, 0xAB, 0x00, 0x00, 0x00, 0x00] ∧
      ((after (feed (textCommands [0x41]) ready)).bind outstanding).map (·.bytes) =
        some [0x00, 0xF7, 0x00, 0x00, 0x00, 0x00, 0x00, 0x00, 0x00] := by decide

/-- R8: a transaction issued and not yet answered is observed, with no answer. -/
theorem test_issued_transaction_is_observed :
    (observation (block tm .initOsc [])).1 = [⟨⟨.cmd1, 0x70, [0x21]⟩, none⟩] := by decide

/-- P-5. -/
theorem test_pack : packList [0x0001, 0x0100, 0x8000, 0x00FF] = ⟨0x00, 0x01, 0x00, 0x00, 0x01, 0x00, 0x80, 0xFF, 0x00⟩ := by
  decide

/-! ## States that meet the statements' hypotheses -/

/-- An idle or busy state with the encoder clear is legal where its map is built in and no response waits. -/
theorem legal_of_clear (s : State) (h7 : s.st ≠ .code7) (hc : EncoderClear s) (hv : s.respValid = false)
    (hm : s.mapSel = true → s.build.hasCustomMap = true) (hb : s.txbuf.b0 = 0) (hr : s.resp = 0)
    (hl : s.busLog = []) (hw : s.chip.ram.wf = true) : Legal s where
  st := h7
  ncells := by rw [hc.ncells]; decide
  freeCells := fun k _ _ => by rw [hc.cells]; exact Cells.get_zero k
  pmask := fun _ => hc.pmask
  ovf := fun h => by rw [hc.ovf] at h; cases h
  clear := fun _ => hc
  respFree := fun _ => hv
  mapSel := hm
  txbuf := hb
  resp := by rw [hr]; decide
  busLog := fun e he => by rw [hl] at he; cases he
  errorBits := fun h => by rw [hr] at h; exact absurd h (by decide)
  answers := fun e he => by rw [hl] at he; cases he
  ram := hw

theorem block_legal (c : Ctrl) (h : c ≠ .code7) (ins : List Input) : Legal (block tm c ins) :=
  legal_of_clear _ h ⟨rfl, rfl, rfl, rfl, rfl⟩ rfl (fun _ => rfl) rfl rfl rfl rfl

theorem answered_legal : Legal answered :=
  
  let h := block_legal .ready (by decide) []
  ⟨h.st, h.ncells, h.freeCells, h.pmask, h.ovf, fun h' => absurd rfl h', fun h' => (by cases h'), h.mapSel, h.txbuf, h.resp,
    h.busLog, h.errorBits, h.answers, h.ram⟩

theorem test_witness_DecodingAnEncodedInstructionGivesItBack :
    Instr.wf true (.init 0x7F true) = true ∧ Instr.wf false (.init 0x00 false) = true ∧
      Instr.wf false (.busFrame ⟨0x00, 0xFF, 0, 0, 0, 0, 0, 0, 0xFF⟩) = true := by decide

theorem test_witness_IgnoredBitsDoNotMatter : ready.portReady = true ∧ resetNext ready = false := by decide

theorem test_witness_DecoderMapsEveryOpcode :
    opField 0x0FFFFFFF = 0x0 ∧ (opField 0x100000F0 = 0x1 ∧ (0x100000F0 : Word).getLsbD 7 = true) ∧
      (opField 0x1000007F = 0x1 ∧ (0x1000007F : Word).getLsbD 7 = false) ∧ opField 0x201FFFFF = 0x2 ∧
      opField 0x3000FFFF = 0x3 ∧ opField 0x40000000 = 0x4 ∧ opField 0x50000000 = 0x5 ∧ opField 0x6FFFFFFF = 0x6 ∧
      opField 0x70000000 = 0x7 ∧ 0x8 ≤ opField 0x80000000 ∧ 0x8 ≤ opField 0xFFFFFFFF := by decide

theorem test_witness_OnlyTheFourWirePatternsDecode :
    decodeWire [0x21] = .ok .busOscOn ∧
      decodeWire [0x00, 0xFF, 0xFF, 0, 0, 0, 0, 0, 0] = .ok (.busFrame ⟨0x00, 0xFF, 0xFF, 0, 0, 0, 0, 0, 0⟩) := by decide

theorem test_witness_StepRunsTheAcceptedCommand :
    (({ ready with waiting := [0x20000041] } : State).portReady = true ∧
      resetNext { ready with waiting := [0x20000041] } = false) ∧
      ((block tm .failed [.offer 0x70000000]).portReady = true ∧ (block tm .failed [.offer 0x70000000]).waiting = [] ∧
        resetNext (block tm .failed [.offer 0x70000000]) = false) := by decide

theorem test_witness_StepRunsTheAnsweredTransaction :
    (outstanding (block tm .initOsc [.answer .ok]) = some ⟨.cmd1, 0x70, [0x21]⟩ ∧
      decodeWire [0x21] = .ok .busOscOn) ∧
      (outstanding (block tm .frameTx [.answer .ok]) = some ⟨.raw, 0x70, [0, 0, 0, 0, 0, 0, 0, 0, 0]⟩ ∧
        decodeWire [0, 0, 0, 0, 0, 0, 0, 0, 0] = .ok (.busFrame Frame.zero)) := by decide

theorem test_witness_OfferWaitsWhileThePortIsNotReady :
    ((block tm .frameTx [.offer 0x00000000]).st ≠ .code7 ∧ (block tm .frameTx [.offer 0x00000000]).portReady = false) ∧
      (answered.st ≠ .code7 ∧ answered.portReady = false) := by decide

theorem test_witness_ResponseWaitsUntilTaken :
    (answered.st ≠ .code7 ∧ answered.respValid = true ∧ respCode answered.resp ≤ 4 ∧ answered.inputs = [.take]) ∧
      (respCode 0x40000000 ≤ 4) ∧
      (Legal answered ∧ resetNext answered = false ∧ ∃ t, step answered = .next t) :=
  ⟨by decide, by decide, answered_legal, by decide, ⟨_, rfl⟩⟩

theorem test_witness_ResetStepSetsEveryRegister :
    (block tm .code7 [.reset]).inputs = [.reset] ∧
      ((block tm .initOsc [.reset, .answer .ok]).inputs = [.reset, .answer .ok] ∧
        (after (step (block tm .initOsc [.reset, .answer .ok]))).map (·.waiting) = some []) := by decide

theorem test_witness_ResetStepKeepsTheSurroundings :
    (∃ t, step (block tm .ready [.reset]) = .next t ∧ outstanding (block tm .ready [.reset]) = none) ∧
      (∃ t tx, step (block tm .frameTx [.reset]) = .next t ∧ outstanding (block tm .frameTx [.reset]) = some tx) :=
  ⟨⟨_, rfl, rfl⟩, ⟨_, _, rfl, rfl⟩⟩

theorem test_witness_SilentBusKeepsTheBlockBusy :
    Legal (block tm .initBrt [.offer 0x70000000]) ∧ (block tm .initBrt [.offer 0x70000000]).st.busy = true ∧
      onlyOffers (block tm .initBrt [.offer 0x70000000]) = true :=
  ⟨block_legal .initBrt (by decide) _, rfl, rfl⟩

theorem test_witness_StepStopsOnlyOutsideTheSpec :
    ((block tm .code7 []).st = .code7 ∧ resetNext (block tm .code7 []) = false) ∧
      (4 < respCode 0x50000000 ∧ ({ answered with resp := 0x50000000 } : State).st ≠ .code7 ∧
        ({ answered with resp := 0x50000000 } : State).respValid = true) ∧ 4 < respCode 0xF0000000 := by decide

theorem test_witness_StepStopsOnlyOutsideTheSpec_moves :
    ((block tm .ready [.take]).st ≠ .code7 ∧ (block tm .ready [.take]).respValid = false ∧
        (block tm .ready [.take]).waiting = []) ∧
      ((block tm .initBrt [.take]).portReady = false ∧ (block tm .initBrt [.take]).respValid = false) ∧
      ((block plain .frameTx [.answer (.err 2)]).st.busy = true ∧ 2 ^ plain.busErrWidth ≤ (2 : BitVec 24).toNat) := by decide

theorem test_witness_EncClearEmptiesTheEncoder :
    (ready.build.hasCustomMap = true ∧ (∃ t, exec (.init 0x70 true) ready = .next t)) ∧
      (∃ t, exec .showText ready = .next t) ∧ (∃ t, exec .clear ready = .next t) ∧
      ((block tm .failed []).st ≠ .ready ∧ (∃ t, exec (.char 0x41) (block tm .failed []) = .next t) ∧
        ∃ t, exec (.mask 0) (block tm .uninit []) = .next t) :=
  ⟨⟨rfl, _, rfl⟩, ⟨_, rfl⟩, ⟨_, rfl⟩, by decide, ⟨_, rfl⟩, ⟨_, rfl⟩⟩

theorem test_witness_CommitAppendsOrOverflows :
    ({ ready with ncells := 3 } : State).ncells < 4 ∧ ¬ ({ ready with ncells := 4 } : State).ncells < 4 ∧
      ({ ready with ncells := 4 } : State).ncells ≤ 4 ∧
      ∃ t, step { ready with ncells := 4, ovf := true } = .next t :=
  ⟨by decide, by decide, by decide, ⟨_, rfl⟩⟩

theorem test_witness_OutstandingTransactionIsAFunctionOfTheState :
    (block tm .initOsc []).st = .initOsc ∧ (block tm .initDisp []).st = .initDisp ∧ (block tm .initBrt []).st = .initBrt ∧
      (block tm .frameTx []).st = .frameTx ∧ ready.st.idle = true ∧
      outstandingInstr (block tm .initOsc []) = some .busOscOn ∧
      ((block tm .frameTx [.offer 0]).st.busy = true ∧ answerNext (block tm .frameTx [.offer 0]) = false ∧
        resetNext (block tm .frameTx [.offer 0]) = false ∧ ∃ t, step (block tm .frameTx [.offer 0]) = .next t) :=
  ⟨rfl, rfl, rfl, rfl, rfl, rfl, rfl, rfl, rfl, ⟨_, rfl⟩⟩

theorem test_witness_UnmappedCharactersReadZero :
    ((block plain .ready []).mapSel = false ∧ (0x1F : CodePoint) < 0x20 ∧ (0x7E : CodePoint) < 0x7F ∧
        (0x7E : CodePoint) ≤ 0x7E ∧ (0x20 : CodePoint) ≠ 0x2E) ∧
      (({ block plain .ready [] with mapSel := true } : State).mapSel = true ∧ plain.hasCustomMap = false) := by decide

theorem test_witness_UnmappedCharactersReadZero_custom :
    ready.mapSel = true ∧ (tm.customMap.getD []).length = 7 ∧
      ((tm.customMap.getD []).all (fun e => e.1 != 0x2E) = true) ∧
      ((tm.customMap.getD []).filter (fun e => e.1 == 0x41) = [(0x41, 0x00F7)]) ∧ (0x41 : CodePoint) ≤ 0x10FFFF ∧
      (0x10FFFF : CodePoint) < 0x110000 := by decide

theorem test_witness_LiteralDecoderReadsSixteenBits :
    litDecode "1000000000000001".toList = .ok 0x8001 ∧ "000000000000000".toList.length ≠ 16 ∧
      "000000000000000x".toList.length = 16 ∧ "000000000000000x".toList.getLast? = some 'x' := by decide

theorem test_witness_OnlyValidLiteralsBuildABlock :
    (∃ b, buildFromLiterals ["0000000000000001".toList] none 0 = .ok b) ∧
      (∃ b, buildFromLiterals ["0000000000000001".toList] (some [(0x10FFFF, "1000000000000000".toList)]) 23 = .ok b) :=
  ⟨⟨_, rfl⟩, ⟨_, rfl⟩⟩

theorem test_witness_OnlyValidLiteralsBuildABlock_invalid :
    litDecode "1".toList = .error .invalidCharacterLiteral ∧ "1".toList ∈ ["1".toList] := by decide

theorem test_witness_NopRespondsOk :
    opField 0x0ABCDEF0 = 0x0 ∧ ready.st.idle = true ∧ ready.respValid = false ∧ resetNext ready = false := by decide

theorem test_witness_InitStartsTheBringUp :
    (ready.build.hasCustomMap = true ∧ opField 0x100000FF = 0x1 ∧ (0x100000FF : Word).getLsbD 7 = true) ∧
      (plain.hasCustomMap = false ∧ (block plain .uninit []).build = plain ∧ (block plain .uninit []).st.idle = true ∧
        (block plain .uninit []).respValid = false) ∧ (opField 0x1000007F = 0x1 ∧ (0x1000007F : Word).getLsbD 7 = false) := by
  decide

theorem test_witness_TextCommandsNeedReady :
    (block tm .uninit [.offer 0x20000041]).st ≠ .ready ∧
      nextCommand (block tm .uninit [.offer 0x20000041]) = some (.char 0x41) ∧
      (block tm .failed [.offer 0x40000000]).st ≠ .ready := by decide

theorem test_witness_CharFollowsTheLookAhead :
    (block tm .failed []).st ≠ .ready ∧
      (({ ready with pend := true, pmask := 0xFFFF } : State).st = .ready ∧
        ({ ready with pend := true, pmask := 0xFFFF } : State).pend = true) ∧ (0x2F : CodePoint) ≠ 0x2E ∧
      (ready.st = .ready ∧ ready.pend = false) ∧ opField 0x2FFFFFFF = 0x2 := by decide

theorem test_witness_MaskAppendsARawCell :
    (block tm .uninit []).st ≠ .ready ∧
      (({ ready with pend := true } : State).st = .ready ∧ ({ ready with pend := true } : State).pend = true) ∧
      (ready.st = .ready ∧ ready.pend = false) ∧ opField 0x3000FFFF = 0x3 := by decide

theorem test_witness_ShowChecksAndSendsTheFrame :
    (block tm .failed []).st ≠ .ready ∧
      (({ ready with ncells := 4, ovf := true } : State).st = .ready ∧
        ({ ready with ncells := 4, ovf := true } : State).ovf = true) ∧
      ((commit 0 { ready with ncells := 4, pend := true }).ovf = true ∧
        (commit 0 { ready with ncells := 3, pend := true }).ovf = false) ∧ (ready.st = .ready ∧ ready.ovf = false) ∧
      opField 0x4FFFFFFF = 0x4 := by decide

theorem test_witness_LookupReturnsTheMask :
    opField 0x5FE00042 = 0x5 ∧ ready.st.idle = true ∧ (block plain .uninit []).mapSel = false := by decide

theorem test_witness_ClearDiscardsThePartialText :
    opField 0x6FFFFFFF = 0x6 ∧ (block tm .failed []).st.idle = true ∧ (block tm .failed []).respValid = false := by decide

theorem test_witness_StatusReportsTheRegisters :
    nextCommand (block tm .failed [.offer 0x70000000]) = some .status ∧ opField 0x70000000 = 0x7 := by decide

theorem test_witness_ReservedWordsAreIllegal :
    0x8 ≤ opField 0x80000000 ∧ 0x8 ≤ opField 0xFFFFFFFF ∧
      (opField 0x10000080 = 0x1 ∧ (0x10000080 : Word).getLsbD 7 = true ∧ (block plain .ready []).build.hasCustomMap = false) := by
  decide

theorem test_witness_OscillatorWriteAnswered :
    ((block tm .initOsc [.answer .ok]).st = .initOsc ∧ (block tm .initOsc [.answer .ok]).inputs = [.answer .ok]) ∧
      (block tm .initOsc [.answer (.err 0xFFFFFF)]).inputs = [.answer (.err 0xFFFFFF)] ∧
      (0xFFFFFF : BitVec 24).toNat < 2 ^ tm.busErrWidth := by decide

theorem test_witness_DisplayOnWriteAnswered :
    ((block tm .initDisp [.answer .ok]).st = .initDisp ∧ (block tm .initDisp [.answer .ok]).inputs = [.answer .ok]) ∧
      (block plain .initDisp [.answer (.err 1)]).inputs = [.answer (.err 1)] ∧
      (1 : BitVec 24).toNat < 2 ^ plain.busErrWidth := by decide

theorem test_witness_BrightnessWriteAnswered :
    ((block tm .initBrt [.answer .ok]).st = .initBrt ∧ (block tm .initBrt [.answer .ok]).inputs = [.answer .ok]) ∧
      (block plain .initBrt [.answer (.err 0)]).inputs = [.answer (.err 0)] ∧
      (0 : BitVec 24).toNat < 2 ^ plain.busErrWidth := by decide

theorem test_witness_FrameWriteAnswered :
    ((block tm .frameTx [.answer .ok]).st = .frameTx ∧ (block tm .frameTx [.answer .ok]).inputs = [.answer .ok]) ∧
      (block plain .frameTx [.answer (.err 1)]).inputs = [.answer (.err 1)] ∧
      (1 : BitVec 24).toNat < 2 ^ plain.busErrWidth := by decide

theorem test_witness_BusErrorIsReportedVerbatim :
    (block tm .initOsc [.answer (.err 0xFFFFFF)]).st.busy = true ∧
      (0xFFFFFF : BitVec 24).toNat < 2 ^ tm.busErrWidth ∧ (block plain .frameTx [.answer (.err 1)]).st.busy = true ∧
      (1 : BitVec 24).toNat < 2 ^ plain.busErrWidth ∧ plain.busErrWidth ≤ 1 := by decide

theorem test_witness_BusRowsNeedTheirTransaction :
    ready.st ≠ .initOsc ∧ (block tm .frameTx []).st ≠ .initDisp ∧ (block tm .initDisp []).st ≠ .initBrt ∧
      ((block tm .frameTx []).txbuf ≠ ⟨0, 1, 0, 0, 0, 0, 0, 0, 0⟩) ∧
      (outstandingInstr (block tm .initOsc [.take]) = some .busOscOn ∧ answerNext (block tm .initOsc [.take]) = false) ∧
      (outstandingInstr (block plain .initOsc [.answer (.err 2)]) = some .busOscOn ∧
        2 ^ plain.busErrWidth ≤ (2 : BitVec 24).toNat) := by decide

theorem test_witness_AnswersAreObservedAndTold :
    (∃ t, outstandingInstr (block tm .initDisp [.answer (.err 7)]) = some .busDispOn ∧
      exec .busDispOn (block tm .initDisp [.answer (.err 7)]) = .next t) ∧
      (∃ t, outstandingInstr (block tm .frameTx [.answer .ok]) = some (.busFrame Frame.zero) ∧
        exec (.busFrame Frame.zero) (block tm .frameTx [.answer .ok]) = .next t) :=
  ⟨⟨_, rfl, rfl⟩, ⟨_, rfl, rfl⟩⟩

theorem test_witness_FrameOfResponseOnlyCommands :
    (∃ t, exec .nop ready = .next t) ∧ (∃ t, exec (.lookup 0x41) ready = .next t) ∧ (∃ t, exec .status ready = .next t) ∧
      ∃ t, exec .reserved ready = .next t := ⟨⟨_, rfl⟩, ⟨_, rfl⟩, ⟨_, rfl⟩, ⟨_, rfl⟩⟩

theorem test_witness_FrameOfEncoderCommands :
    (∃ t, exec (.char 0x41) ready = .next t) ∧ (∃ t, exec (.mask 0xFFFF) ready = .next t) ∧ ∃ t, exec .clear ready = .next t :=
  ⟨⟨_, rfl⟩, ⟨_, rfl⟩, ⟨_, rfl⟩⟩

theorem test_witness_FrameOfInitAndShow :
    (∃ t, exec (.init 0x7F true) ready = .next t) ∧ ∃ t, exec .showText ready = .next t := ⟨⟨_, rfl⟩, ⟨_, rfl⟩⟩

theorem test_witness_FrameOfBusRows :
    (∃ t, exec .busOscOn (block tm .initOsc [.answer .ok]) = .next t) ∧
      (∃ t, exec .busDispOn (block tm .initDisp [.answer .ok]) = .next t) ∧
      (∃ t, exec .busBrightness (block tm .initBrt [.answer (.err 1)]) = .next t) ∧
      ∃ t, exec (.busFrame Frame.zero) (block tm .frameTx [.answer .ok]) = .next t :=
  ⟨⟨_, rfl⟩, ⟨_, rfl⟩, ⟨_, rfl⟩, ⟨_, rfl⟩⟩

theorem test_witness_PackLaysOutTheFrame :
    (3 ≤ 3 ∧ 3 < 4) ∧ (4 ≤ 4) ∧
      (∀ k, k < 1 → (⟨7, 1, 2, 3⟩ : Cells).get k = (⟨7, 4, 5, 6⟩ : Cells).get k) := by decide

theorem test_witness_TextLengthBoundsTheCells :
    9 ≤ ([0x2E, 0x2E, 0x2E, 0x2E, 0x2E, 0x2E, 0x2E, 0x2E, 0x2E] : List CodePoint).length ∧
      ([0x41, 0x41, 0x41, 0x41] : List CodePoint).length ≤ 4 := by decide

theorem test_witness_CharStreamAgreesWithEncode : ready.st = .ready ∧ EncoderClear ready := ⟨rfl, rfl, rfl, rfl, rfl, rfl⟩

theorem test_witness_InitRunsItsThreeWritesInOrder :
    encode (.init 0x70 true) = .command 0x100000F0 ∧
      ((block tm .failed [.offer 0x100000F0, .answer (.err 1)]).portReady = true ∧
        (block tm .failed [.offer 0x100000F0, .answer (.err 1)]).waiting = []) ∧
      (block tm .ready [.offer 0x100000F0, .answer .ok, .answer (.err 1)]).portReady = true ∧
      (block tm .ready [.offer 0x100000F0, .answer .ok, .answer .ok, .answer (.err 1)]).portReady = true ∧
      (block tm .uninit [.offer 0x100000F0, .answer .ok, .answer .ok, .answer .ok]).portReady = true ∧
      tm.hasCustomMap = true ∧ (1 : BitVec 24).toNat < 2 ^ tm.busErrWidth := by decide

theorem test_witness_ShowSendsOneFrameOrNone :
    ((block tm .failed [.offer 0x40000000]).portReady = true ∧ (block tm .failed [.offer 0x40000000]).waiting = []) ∧
      (4 < (encoderContents { ready with ncells := 4, pend := true, inputs := [.offer 0x40000000] }).length) ∧
      ((encoderContents { ready with ncells := 3, pend := true, inputs := [.offer 0x40000000, .answer (.err 1)] }).length ≤ 4 ∧
        ready.ovf = false ∧ ready.portReady = true ∧ (BusAnswer.err 1).fits tm = true) := by decide

theorem test_witness_StepKeepsTheStateLegal :
    (Legal ready ∧ ∃ t, step { ready with waiting := [0x20000041] } = .next t) ∧ Legal (block tm .frameTx [.answer .ok]) ∧
      (∃ t, step (block tm .frameTx [.answer .ok]) = .next t) ∧ Legal answered :=
  ⟨⟨block_legal .ready (by decide) [], _, rfl⟩, block_legal .frameTx (by decide) _, ⟨_, rfl⟩, answered_legal⟩

theorem test_witness_LegalStateAlwaysSteps :
    (Legal (block tm .failed [.answer .ok]) ∧ moveAllowed (block tm .failed [.answer .ok]) = true) ∧
      (Legal (block tm .failed [.take]) ∧ moveAllowed (block tm .failed [.take]) = false) ∧
      moveAllowed (block plain .initOsc [.answer (.err 2)]) = false :=
  ⟨⟨block_legal .failed (by decide) _, rfl⟩, ⟨block_legal .failed (by decide) _, rfl⟩, rfl⟩

theorem test_witness_OnlyTheNamedRulesWriteSt :
    (after (step (block tm .frameTx [.answer .ok]))).map (·.st) = some .ready ∧
      (after (step (block tm .ready [.offer 0x40000000]))).map (·.st) = some .frameTx ∧
      (after (step (block tm .failed [.offer 0x10000070]))).map (·.st) = some .initOsc ∧
      (after (step (block tm .failed [.reset]))).map (·.st) = some .uninit := by decide

theorem test_witness_OnlyInitWritesAddressAndMap :
    (after (step (block tm .ready [.offer 0x10000011]))).map (fun t => (t.addr, t.mapSel)) = some (0x11, false) ∧
      outstanding (block tm .initOsc []) = some ⟨.cmd1, 0x70, [0x21]⟩ := by decide

theorem test_witness_OnlyShowWritesTheFrameBuffer :
    (after (step { ready with pend := true, pmask := 0x1234, inputs := [.offer 0x40000000] })).map (·.txbuf) =
      some ⟨0, 0x34, 0x12, 0, 0, 0, 0, 0, 0⟩ := by decide

theorem test_witness_OverflowIsSticky :
    (after (step { ready with ncells := 4, ovf := true, inputs := [.offer 0x60000000] })).map (·.ovf) = some false ∧
      (after (step { ready with ncells := 4, inputs := [.offer 0x30000000] })).map (·.ovf) = some true := by decide

theorem test_witness_TheTableNeverChanges :
    (after (step (block tm .ready [.offer 0x20000041]))).map (fun t => (t.build, t.mapSel)) = some (tm, true) := by decide

theorem test_witness_TransactionsNeverOverlap :
    (∃ t, step (block tm .initOsc [.answer .ok]) = .next t) ∧ ∃ t, step (block tm .initOsc [.reset]) = .next t :=
  ⟨⟨_, rfl⟩, ⟨_, rfl⟩⟩

theorem test_witness_EveryScheduleEndsHangsOrIsStuck :
    Legal (block tm .failed [.offer 0x10000070, .answer .ok, .answer (.err 1), .take, .offer 0]) ∧
      noResets (block tm .failed [.offer 0x10000070, .answer .ok, .answer (.err 1), .take, .offer 0]) = true ∧
      owed (block tm .failed [.offer 0x10000070, .answer .ok, .answer (.err 1), .take, .offer 0]) = 2 ∧
      (after (runSteps 5 (block tm .failed [.offer 0x10000070, .answer .ok, .answer (.err 1), .take, .offer 0]))).map
        (fun t => (t.respLog, t.busLog.length, t.respValid)) = some ([0x14000001], 2, true) :=
  ⟨block_legal .failed (by decide) _, rfl, rfl, by decide⟩

theorem test_witness_CommandsAreAcceptedInOrder :
    (∃ t, step (block tm .frameTx [.offer 0]) = .next t ∧ nextCommand (block tm .frameTx [.offer 0]) = none) ∧
      (∃ t, step (block tm .ready [.offer 0]) = .next t ∧ nextCommand (block tm .ready [.offer 0]) = some .nop) :=
  ⟨⟨_, rfl, rfl⟩, ⟨_, rfl, rfl⟩⟩

theorem test_witness_EveryCommandGetsOneResponse :
    (∃ t, step (block tm .ready [.offer 0x10000070]) = .next t ∧
      nextCommand (block tm .ready [.offer 0x10000070]) = some (.init 0x70 false)) ∧
      ((block tm .initBrt [.answer .ok]).st.busy = true ∧ (block tm .initBrt [.answer .ok]).respValid = false ∧
        answerNext (block tm .initBrt [.answer .ok]) = true ∧ ∃ t, step (block tm .initBrt [.answer .ok]) = .next t) :=
  ⟨⟨_, rfl, rfl⟩, rfl, rfl, rfl, ⟨_, rfl⟩⟩

theorem test_witness_EndedRunStaysEnded :
    runEnded (block tm .ready [.answer .ok]) = true ∧ resetNext (block tm .ready [.answer .ok]) = false ∧
      runEnded (block tm .failed []) = true := by decide

end Sys2Proof.Tests
end

/-! PROOFS of the family 00_scope: what a step is, where it stops, and what it does to the transactions. -/

namespace Sys2Proof

open Machine

/-! ## The next step, by the moves to come -/

/-- A step that is no reset, on a ready port, is the port's. -/
theorem nextMove_of_ready {s : State} (hp : s.portReady = true) (hr : resetNext s = false) :
    nextMove s = moveReady s := by
  have h7 : s.st ≠ .code7 := by
    intro h
    simp [State.portReady, h, Ctrl.idle] at hp
  have hr' : ∀ rest, s.inputs ≠ .reset :: rest := by
    intro rest h
    simp [resetNext, h] at hr
  rw [nextMove_eq hr' h7, if_pos hp]

/-- The controller value 7 stops every step but a reset (93_implementation_defined.md U18). -/
theorem step_code7 {s : State} (h7 : s.st = .code7) (hr : resetNext s = false) :
    step s = .refused .unreachableController := by
  apply step_done
  unfold nextMove
  rcases hi : s.inputs with _ | ⟨_ | _ | _ | _, rest⟩ <;> simp_all [resetNext]

/-- A take that no waiting word goes before is the host's take. -/
theorem step_take {s : State} {rest : List Input} (h7 : s.st ≠ .code7) (hw : s.portReady = true → s.waiting = [])
    (hi : s.inputs = .take :: rest) : step s = takeResponse { s with inputs := rest } := by
  apply step_done
  rw [nextMove_eq (by simp [hi]) h7]
  by_cases hp : s.portReady = true
  · rw [if_pos hp, moveReady, hw hp, hi]
  · rw [if_neg hp, moveNotReady, hi]

theorem busy_of_outstandingInstr {s : State} {i : Instr} (ho : outstandingInstr s = some i) : s.st.busy = true := by
  rcases outstanding_cases s with ⟨-, -, h⟩ | ⟨hb, -⟩
  · rw [h] at ho; cases ho
  · exact hb

theorem exists_outstanding_of_busy {s : State} (hb : s.st.busy = true) :
    ∃ tx i, outstanding s = some tx ∧ outstandingInstr s = some i := by
  rcases outstanding_cases s with ⟨h, -⟩ | ⟨-, h⟩
  · exact absurd (hb.symm.trans h) (by decide)
  · exact h

/-- An answer to the outstanding transaction runs that transaction's row. -/
theorem step_answer {s : State} {i : Instr} {r : BusAnswer} {rest : List Input} (ho : outstandingInstr s = some i)
    (hi : s.inputs = .answer r :: rest) : step s = exec i s := by
  have hb := busy_of_outstandingInstr ho
  have h7 : s.st ≠ .code7 := by
    intro h
    simp [h, Ctrl.busy] at hb
  apply step_run
  rw [nextMove_eq (by simp [hi]) h7, portReady_of_busy hb]
  simp [moveNotReady, hi, ho]

/-- Settles O6: a ready port's move is `moveReady`, which runs the oldest word. -/
theorem stepRunsTheAcceptedCommand : Obligations.StepRunsTheAcceptedCommand := by
  intro s hp hr
  constructor
  · intro w ws hw
    exact step_run (by rw [nextMove_of_ready hp hr, moveReady, hw])
  · intro w rest hw hi
    exact step_run (by rw [nextMove_of_ready hp hr, moveReady, hw, hi])

/-! ## The outstanding transaction and its row -/

/-- The bytes of the outstanding transaction are the code of its row (R56, R57). -/
theorem encode_outstandingInstr {s : State} {tx : Transaction} {i : Instr} (htx : outstanding s = some tx)
    (ho : outstandingInstr s = some i) : encode i = .wire tx.bytes := by
  unfold outstanding at htx
  unfold outstandingInstr at ho
  cases hst : s.st <;> rw [hst] at htx ho <;> cases htx <;> cases ho <;> rfl

/-- What the outstanding transaction's bytes decode to is its row. -/
theorem outstandingInstr_of_decodeWire {s : State} {tx : Transaction} {i : Instr} (htx : outstanding s = some tx)
    (hd : decodeWire tx.bytes = .ok i) : outstandingInstr s = some i := by
  unfold outstanding at htx
  unfold outstandingInstr
  cases hst : s.st <;> rw [hst] at htx <;> cases htx
  case initOsc | initDisp | initBrt => cases hd; rfl
  case frameTx =>
    simp only [Frame.toList, decodeWire] at hd
    split at hd <;> cases hd
    rfl

/-- Settles O7: the bytes decode to the outstanding row, and the answer step runs that row. -/
theorem stepRunsTheAnsweredTransaction : Obligations.StepRunsTheAnsweredTransaction :=
  fun _ _ _ _ _ htx hd hi => step_answer (outstandingInstr_of_decodeWire htx hd) hi

/-- The row of the outstanding transaction waits where no answer comes next (R32). -/
theorem exec_outstanding_waits {s : State} {i : Instr} (ho : outstandingInstr s = some i) (ha : answerNext s = false) :
    exec i s = .next s := by
  have hi : ∀ r rest, s.inputs ≠ .answer r :: rest := by
    intro r rest h
    simp [answerNext, h] at ha
  have hwait : ∀ k, onAnswer true k s = .next s := by
    intro k
    rcases onAnswer_cases true k s with ⟨-, r, rest, h, -⟩ | ⟨-, r, rest, h, -⟩ | ⟨-, -, h⟩ | ⟨h, -⟩
    · exact absurd h (hi r rest)
    · exact absurd h (hi r rest)
    · exact h
    · cases h
  unfold outstandingInstr at ho
  cases hst : s.st <;> rw [hst] at ho <;> cases ho <;>
    simp [exec, execBusOscOn, execBusDispOn, execBusBrightness, execBusFrame, hst, hwait]

/-- An error code that is too wide for the build is no answer of its bus. -/
theorem fits_err_eq_false {b : Build} {e : BitVec 24} (h : 2 ^ b.busErrWidth ≤ e.toNat) :
    (BusAnswer.err e).fits b = false := by
  simpa using h

/-- The outstanding row answered with a code too wide is refused. -/
theorem exec_answered_wide {s : State} {i : Instr} {e : BitVec 24} {rest : List Input}
    (ho : outstandingInstr s = some i) (hi : s.inputs = .answer (.err e) :: rest)
    (hw : 2 ^ s.build.busErrWidth ≤ e.toNat) : exec i s = .refused .wideErrorCode := by
  rw [exec_answered ho hi, fits_err_eq_false hw]
  rfl

/-- Settles O37: a row out of place is refused by `onAnswer`, and the row in place waits or is refused. -/
theorem busRowsNeedTheirTransaction : Obligations.BusRowsNeedTheirTransaction := by
  intro s
  refine ⟨?_, ?_, ?_, ?_, fun i ho ha => exec_outstanding_waits ho ha, fun i e rest ho hi hw => exec_answered_wide ho hi hw⟩
  · intro h
    simp [exec, execBusOscOn, onAnswer, h]
  · intro h
    simp [exec, execBusDispOn, onAnswer, h]
  · intro h
    simp [exec, execBusBrightness, onAnswer, h]
  · intro f h
    have here : (s.st == .frameTx && s.txbuf == f) = false := by
      simpa [Decidable.imp_iff_not_or] using h
    simp [exec, execBusFrame, onAnswer, here]

/-! ## Where a step stops -/

/-- A take of a word no rule produces is a fault (U17). -/
theorem step_take_unknownCode {s : State} {rest : List Input} (h7 : s.st ≠ .code7) (hv : s.respValid = true)
    (hc : 4 < respCode s.resp) (hi : s.inputs = .take :: rest) :
    step s = .fault (.unknownResponseCode (respCode s.resp)) := by
  have hp : s.portReady = false := by simp [State.portReady, hv]
  rw [step_take h7 (by simp [hp]) hi]
  rcases takeResponse_cases { s with inputs := rest } with ⟨h, -⟩ | ⟨-, h, -⟩ | ⟨-, -, h⟩
  · exact absurd (hv.symm.trans h) (by decide)
  · exact absurd h (BitVec.not_le.mpr hc)
  · exact h

/-- A take that finds no response, and no word to be accepted first, is refused (R106). -/
theorem step_take_noResponse {s : State} {rest : List Input} (h7 : s.st ≠ .code7) (hv : s.respValid = false)
    (hw : s.portReady = true → s.waiting = []) (hi : s.inputs = .take :: rest) :
    step s = .refused .noResponseToTake := by
  rw [step_take h7 hw hi]
  rcases takeResponse_cases { s with inputs := rest } with ⟨-, h⟩ | ⟨h, -⟩ | ⟨h, -⟩
  · exact h
  · exact absurd (hv.symm.trans h) (by decide)
  · exact absurd (hv.symm.trans h) (by decide)

/-- An answer with a code too wide to the outstanding transaction is refused (R55). -/
theorem step_answer_wide {s : State} {e : BitVec 24} {rest : List Input} (hb : s.st.busy = true)
    (hw : 2 ^ s.build.busErrWidth ≤ e.toNat) (hi : s.inputs = .answer (.err e) :: rest) :
    step s = .refused .wideErrorCode := by
  obtain ⟨-, i, -, ho⟩ := exists_outstanding_of_busy hb
  rw [step_answer ho hi, exec_answered_wide ho hi hw]

/-- A step answers a next state, or stands in one of the four stops. -/
theorem step_next_or_stops (s : State) : (∃ t, step s = .next t) ∨ (s.st = .code7 ∧ resetNext s = false) ∨
    (∃ rest, s.st ≠ .code7 ∧ s.respValid = true ∧ 4 < respCode s.resp ∧ s.inputs = .take :: rest) ∨
    (∃ rest, s.st ≠ .code7 ∧ s.respValid = false ∧ (s.portReady = true → s.waiting = []) ∧ s.inputs = .take :: rest) ∨
    (∃ e rest, s.st.busy = true ∧ 2 ^ s.build.busErrWidth ≤ e.toNat ∧ s.inputs = .answer (.err e) :: rest) := by
  by_cases hstop : s.st = .code7 ∧ resetNext s = false
  · exact .inr (.inl hstop)
  have hm := nextMove_cases s
  generalize hmv : nextMove s = mv at hm
  cases hm with
  | reset rest hi => exact .inl ⟨_, step_done hmv⟩
  | unreachable hr h7 => exact absurd ⟨h7, resetNext_eq_false hr⟩ hstop
  | acceptWaiting w ws =>
    obtain ⟨t, ht⟩ := exec_hostCommand_completes _ { s with waiting := ws } (decodeCommand_hostCommand s.build.hasCustomMap w)
    exact .inl ⟨t, (step_run hmv).trans ht⟩
  | acceptOffer w rest =>
    obtain ⟨t, ht⟩ := exec_hostCommand_completes _ { s with inputs := rest } (decodeCommand_hostCommand s.build.hasCustomMap w)
    exact .inl ⟨t, (step_run hmv).trans ht⟩
  | offerWaits => exact .inl ⟨_, step_done hmv⟩
  | take rest hw hi =>
    have h7 : s.st ≠ .code7 := fun h => hstop ⟨h, by simp [resetNext, hi]⟩
    rcases takeResponse_cases { s with inputs := rest } with ⟨hv, -⟩ | ⟨-, -, h⟩ | ⟨hv, hc, -⟩
    · exact .inr (.inr (.inr (.inl ⟨rest, h7, hv, hw, hi⟩)))
    · exact .inl ⟨_, (step_done hmv).trans h⟩
    · exact .inr (.inr (.inl ⟨rest, h7, hv, hc, hi⟩))
  | answer r rest i hb hi ho =>
    have he := (step_run hmv).trans (exec_answered ho hi)
    cases hf : r.fits s.build with
    | true => exact .inl ⟨_, he.trans (if_pos hf)⟩
    | false =>
      cases r with
      | ok => cases hf
      | err e => exact .inr (.inr (.inr (.inr ⟨e, rest, hb, by simpa using hf, hi⟩)))
  | usedUpAnswer => exact .inl ⟨_, step_done hmv⟩
  | quiet => exact .inl ⟨_, step_done hmv⟩

/-- Settles O14: one lemma per stop, and the case split of the next move. -/
theorem stepStopsOnlyOutsideTheSpec : Obligations.StepStopsOnlyOutsideTheSpec :=
  ⟨fun _ h7 hr => step_code7 h7 hr, fun _ _ h7 hv hc hi => step_take_unknownCode h7 hv hc hi,
    fun _ _ h7 hv hw hi => step_take_noResponse h7 hv hw hi, fun _ _ _ hb hw hi => step_answer_wide hb hw hi,
    step_next_or_stops⟩

/-! ## The part of legality that a run needs -/

/-- What keeps a run going: of `Legal`, the controller value, the free response register while the bus is busy (R101), and the
response codes (R54). -/
structure Serviceable (s : State) : Prop where
  st : s.st ≠ .code7
  respFree : s.st.busy = true → s.respValid = false
  resp : respCode s.resp ≤ 4

theorem Legal.serviceable {s : State} (h : Legal s) : Serviceable s := ⟨h.st, h.respFree, h.resp⟩

/-- A serviceable state steps where the move is one the spec gives. -/
theorem Serviceable.step_of_moveAllowed {s : State} (h : Serviceable s) (ha : moveAllowed s = true) :
    ∃ t, step s = .next t := by
  rcases step_next_or_stops s with hn | ⟨h7, -⟩ | ⟨rest, -, -, hc, -⟩ | ⟨rest, -, hv, hw, hi⟩ | ⟨e, rest, hb, hw, hi⟩
  · exact hn
  · exact absurd h7 h.st
  · exact absurd h.resp (BitVec.not_le.mpr hc)
  · simp only [moveAllowed, hi, hv, Bool.false_or, Bool.and_eq_true] at ha
    simp [hw ha.1] at ha
  · simp [moveAllowed, hi, hb, fits_err_eq_false hw] at ha

/-- A serviceable state refuses a move the spec does not give, by name. -/
theorem Serviceable.step_of_not_moveAllowed {s : State} (h : Serviceable s) (ha : moveAllowed s = false) :
    step s = .refused .noResponseToTake ∨ step s = .refused .wideErrorCode := by
  unfold moveAllowed at ha
  split at ha
  · next rest hi =>
    simp only [Bool.or_eq_false_iff, Bool.and_eq_false_imp] at ha
    obtain ⟨hv, hw⟩ := ha
    exact .inl (step_take_noResponse h.st hv (by simpa using hw) hi)
  · next r rest hi =>
    simp only [Bool.or_eq_false_iff, Bool.not_eq_eq_eq_not, Bool.not_false] at ha
    obtain ⟨hb, hf⟩ := ha
    cases r with
    | ok => cases hf
    | err e => exact .inr (step_answer_wide hb (by simpa using hf) hi)
  all_goals cases ha

/-- Settles O50: of the stops, a legal state leaves the two moves the spec does not give. -/
theorem legalStateAlwaysSteps : Obligations.LegalStateAlwaysSteps :=
  fun _ h => ⟨h.serviceable.step_of_moveAllowed, h.serviceable.step_of_not_moveAllowed⟩

end Sys2Proof

/-! PROOFS of the family 00_scope: what an answer records, and what a step does to the transactions observed. -/

namespace Sys2Proof

open Machine

/-! ## The answer's record and the chip shadow -/

/-- The state after an answer: the move used up, the transaction on the observed list, the chip told; the block's registers are
the rule's. -/
theorem answerRule_endTransaction {s : State} {tx : Transaction} (htx : outstanding s = some tx) (c : Ctrl) (r : BusAnswer)
    (rest : List Input) :
    (answerRule c r (endTransaction r rest s)).inputs = rest ∧
      (answerRule c r (endTransaction r rest s)).busLog = s.busLog ++ [⟨tx, some r⟩] ∧
      (answerRule c r (endTransaction r rest s)).chip = s.chip.answered tx.bytes r := by
  rw [endTransaction_some r rest htx, answerRule_frame]
  exact ⟨rfl, rfl, rfl⟩

/-- An answered row that goes on has recorded its answer. -/
theorem exec_answered_next {s t : State} {tx : Transaction} {i : Instr} {r : BusAnswer} {rest : List Input}
    (htx : outstanding s = some tx) (ho : outstandingInstr s = some i) (hi : s.inputs = .answer r :: rest)
    (h : exec i s = .next t) :
    t.inputs = rest ∧ t.busLog = s.busLog ++ [⟨tx, some r⟩] ∧ t.chip = s.chip.answered tx.bytes r := by
  rw [exec_answered ho hi] at h
  split at h <;> cases h
  exact answerRule_endTransaction htx s.st r rest

theorem Machine.Chip.answered_cmdOsc (c : Chip) (r : BusAnswer) :
    c.answered [cmdOsc] r = { c with oscOn := if r = .ok then some true else none } := by
  cases r <;> rfl

theorem Machine.Chip.answered_cmdDisp (c : Chip) (r : BusAnswer) :
    c.answered [cmdDisp] r =
      { c with dispOn := if r = .ok then some true else none, blinkOff := if r = .ok then some true else none } := by
  cases r <;> rfl

theorem Machine.Chip.answered_cmdBrightness (c : Chip) (r : BusAnswer) :
    c.answered [cmdBrightness] r = { c with brightness := if r = .ok then some 15 else none } := by
  cases r <;> rfl

/-- A frame's answer reaches the chip's RAM only. -/
theorem Machine.Chip.answered_frame (c : Chip) (f : Frame) (r : BusAnswer) :
    c.answered f.toList r =
      { c with ram := if r = .ok then c.ram.writeBytes 0 f.toList.tail else c.ram.forgetBytes 0 8 } := by
  cases r <;> rfl

/-- A RAM byte the frame covers is its own after OK, and unknown after ERR. -/
theorem Machine.Chip.read_answered_frame_of_lt (c : Chip) (f : Frame) (r : BusAnswer) {j : Nat} (hj : j < 8) :
    (c.answered f.toList r).ram.read j = if r = .ok then f.toList[1 + j]? else none := by
  rw [Chip.answered_frame]
  cases r with
  | ok => simp [Memory.read_writeBytes, Frame.toList, hj, Nat.add_comm 1 j]
  | err e => simp [Memory.read_forgetBytes, hj]

/-- A RAM byte beyond the frame reads as before. -/
theorem Machine.Chip.read_answered_frame_of_le (c : Chip) (f : Frame) (r : BusAnswer) {a : Nat} (ha : 8 ≤ a) :
    (c.answered f.toList r).ram.read a = c.ram.read a := by
  rw [Chip.answered_frame]
  cases r with
  | ok => simp [Memory.read_writeBytes, Frame.toList, Nat.not_lt.mpr ha]
  | err e => simp [Memory.read_forgetBytes, Nat.not_lt.mpr ha]

/-- Settles O38: the row names the bytes, and the bytes say what the chip has been told. -/
theorem answersAreObservedAndTold : Obligations.AnswersAreObservedAndTold := by
  intro s t tx i r rest htx ho hi h
  obtain ⟨hin, hlog, hchip⟩ := exec_answered_next htx ho hi h
  have hcode := encode_outstandingInstr htx ho
  refine ⟨hin, hlog, ?_, ?_, ?_, ?_⟩
  · rintro rfl
    have hbytes : [cmdOsc] = tx.bytes := Code.wire.inj hcode
    rw [hchip, ← hbytes, Chip.answered_cmdOsc]
  · rintro rfl
    have hbytes : [cmdDisp] = tx.bytes := Code.wire.inj hcode
    rw [hchip, ← hbytes, Chip.answered_cmdDisp]
  · rintro rfl
    have hbytes : [cmdBrightness] = tx.bytes := Code.wire.inj hcode
    rw [hchip, ← hbytes, Chip.answered_cmdBrightness]
  · rintro f rfl
    have hbytes : f.toList = tx.bytes := Code.wire.inj hcode
    rw [hchip, ← hbytes]
    refine ⟨?_, ?_, ?_, ?_, fun j hj => Chip.read_answered_frame_of_lt _ f r hj,
      fun a ha => Chip.read_answered_frame_of_le _ f r ha⟩ <;> rw [Chip.answered_frame]

/-! ## Transactions -/

theorem outstanding_of_idle {s : State} (h : s.st.idle = true) : outstanding s = none := by
  rcases outstanding_cases s with ⟨-, ho, -⟩ | ⟨hb, -⟩
  · exact ho
  · exact absurd (hb.symm.trans (Ctrl.busy_of_idle h)) (by decide)

/-- The transactions observed are the ended ones and then the outstanding one. -/
theorem issued_map_tx (s : State) : s.issued.map (·.tx) = s.busLog.map (·.tx) ++ (outstanding s).toList := by
  cases h : outstanding s with
  | none => simp [issued_none h]
  | some tx => simp [issued_some h]

/-- What a step does to the transactions: none ends and the outstanding one stays, or the outstanding one ends, without an
answer exactly in a reset, or none was outstanding and none ends. -/
theorem step_transactions {s t : State} (h : step s = .next t) :
    (t.busLog = s.busLog ∧ outstanding t = outstanding s) ∨ (t.busLog = s.busLog ∧ outstanding s = none) ∨
      ∃ tx a, outstanding s = some tx ∧ t.busLog = s.busLog ++ [⟨tx, a⟩] ∧ (a = none ↔ resetNext s = true) := by
  cases step_cases h with
  | reset rest hi hr hn ht =>
    subst ht
    cases ho : outstanding s with
    | none =>
      have hlog : (resetBlock { s with inputs := rest }).busLog = s.busLog := by
        simp [resetBlock, show outstanding { s with inputs := rest } = none from ho]
      exact .inr (.inl ⟨hlog, rfl⟩)
    | some tx =>
      have hlog : (resetBlock { s with inputs := rest }).busLog = s.busLog ++ [⟨tx, none⟩] := by
        simp [resetBlock, show outstanding { s with inputs := rest } = some tx from ho]
      exact .inr (.inr ⟨tx, none, rfl, hlog, by simp [hr]⟩)
  | command w u hp hr hn hw hu he =>
    obtain ⟨-, -, -, hlog, -, -⟩ := exec_hostCommand_frame (decodeCommand_hostCommand _ _) he
    rw [hu] at hlog
    exact .inr (.inl ⟨hlog, outstanding_of_idle ((portReady_iff s).mp hp).1⟩)
  | surroundings hr hn hw ha ht =>
    rw [ht]
    exact .inl ⟨rfl, rfl⟩
  | take rest hi hr hn hv hc ht =>
    rw [ht]
    exact .inl ⟨rfl, rfl⟩
  | answer r rest i hi hr hn hb ho hf ht =>
    obtain ⟨tx, -, htx, -⟩ := exists_outstanding_of_busy hb
    obtain ⟨-, hlog, -⟩ := answerRule_endTransaction htx s.st r rest
    rw [← ht] at hlog
    exact .inr (.inr ⟨tx, some r, htx, hlog, by simp [hr]⟩)

/-- Where the transactions ended so far are all those issued before, the one now outstanding, if any, is new. -/
theorem issued_same_or_one_more {s t : State} (h : t.busLog.map (·.tx) = s.issued.map (·.tx)) :
    t.issued.map (·.tx) = s.issued.map (·.tx) ∨
      ∃ tx, outstanding t = some tx ∧ t.issued.map (·.tx) = s.issued.map (·.tx) ++ [tx] := by
  rw [issued_map_tx t, h]
  cases outstanding t with
  | none => exact .inl (by simp)
  | some tx => exact .inr ⟨tx, rfl, rfl⟩

/-- Settles O56: by what a step does to the transactions. -/
theorem transactionsNeverOverlap : Obligations.TransactionsNeverOverlap := by
  intro s t h
  rcases step_transactions h with ⟨hlog, ho⟩ | ⟨hlog, ho⟩ | ⟨tx, a, ho, hlog, ha⟩
  · refine ⟨.inl ⟨hlog, fun tx htx => ho.trans htx⟩, .inl ?_⟩
    simp only [observation, issued_map_tx, hlog, ho]
  · refine ⟨.inl ⟨hlog, fun tx htx => by rw [ho] at htx; cases htx⟩, issued_same_or_one_more ?_⟩
    simp [issued_map_tx, hlog, ho]
  · refine ⟨.inr ⟨tx, a, ho, hlog, ha⟩, issued_same_or_one_more ?_⟩
    simp [issued_map_tx, hlog, ho]

end Sys2Proof

/-! PROOFS of the family 00_scope: a schedule with no reset comes to rest, and what is owed on the way. -/

namespace Sys2Proof

open Machine

/-! ## What a command or an answer leaves owed -/

/-- R102: what a command, or the answer to its transaction, comes to: one response is owed, as one that waits or by a transaction
outstanding. -/
structure OneOwed (t : State) : Prop extends Serviceable t where
  one : t.st.busy.toNat + t.respValid.toNat = 1

theorem OneOwed.of_response {t : State} (hst : t.st.idle = true) (hv : t.respValid = true) (hc : respCode t.resp ≤ 4) :
    OneOwed t where
  st := by rintro h; simp [h, Ctrl.idle] at hst
  respFree := by simp [Ctrl.busy_of_idle hst]
  resp := hc
  one := by simp [Ctrl.busy_of_idle hst, hv]

theorem OneOwed.of_transaction {t : State} (hst : t.st.busy = true) (hv : t.respValid = false)
    (hc : respCode t.resp ≤ 4) : OneOwed t where
  st := by rintro h; simp [h, Ctrl.busy] at hst
  respFree := fun _ => hv
  resp := hc
  one := by simp [hst, hv]

theorem respCode_respond_le {code : BitVec 4} (data : BitVec 28) (s : State) (hc : code ≤ 4) :
    respCode (respond code data s).resp ≤ 4 := by
  rwa [respCode_respond]

/-- A response is given where the block stands, with the code it was given. -/
theorem respond_result {s u : State} {code : BitVec 4} (data : BitVec 28) (hst : u.st = s.st) (hc : code ≤ 4) :
    (respond code data u).st = s.st ∧ (respond code data u).respValid = true ∧
      respCode (respond code data u).resp ≤ 4 :=
  ⟨hst, rfl, respCode_respond_le data u hc⟩

/-- A host command responds where it stands, or starts a transaction and leaves the response register. -/
theorem exec_hostCommand_result {i : Instr} {s t : State} (hc : hostCommand i = true) (h : exec i s = .next t) :
    (t.st = s.st ∧ t.respValid = true ∧ respCode t.resp ≤ 4) ∨
      (t.st.busy = true ∧ t.respValid = s.respValid ∧ t.resp = s.resp) := by
  cases i <;> simp only [exec] at h
  case nop | status | lookup | clear | reserved =>
    cases h
    exact .inl (respond_result _ rfl (by decide))
  case init a custom =>
    unfold execInit at h
    split at h <;> cases h
    · exact .inl (respond_result _ rfl (by decide))
    · exact .inr ⟨rfl, rfl, rfl⟩
  case char cp =>
    unfold execChar at h
    split at h
    · cases h
      exact .inl (respond_result _ rfl (by decide))
    · split at h <;> cases h
      · exact .inl (respond_result _ (commit_st _ s) (by decide))
      · refine .inl (respond_result _ ?_ (by decide))
        split <;> simp
  case mask m =>
    unfold execMask at h
    split at h <;> cases h
    · exact .inl (respond_result _ rfl (by decide))
    · exact .inl (respond_result _ (by simp) (by decide))
  case showText =>
    unfold execShowText at h
    split at h
    · cases h
      exact .inl (respond_result _ rfl (by decide))
    · simp only at h
      split at h <;> cases h
      · exact .inl (respond_result _ (by simp) (by decide))
      · exact .inr ⟨rfl, by simp, by simp⟩
  all_goals cases hc

/-- A command accepted on a ready port owes one response. -/
theorem exec_hostCommand_oneOwed {i : Instr} {s t : State} (hc : hostCommand i = true) (hp : s.portReady = true)
    (hr : respCode s.resp ≤ 4) (h : exec i s = .next t) : OneOwed t := by
  obtain ⟨hidle, hv⟩ := (portReady_iff s).mp hp
  rcases exec_hostCommand_result hc h with ⟨hst, hv', hr'⟩ | ⟨hb, hv', hr'⟩
  · exact .of_response (hst ▸ hidle) hv' hr'
  · exact .of_transaction hb (hv'.trans hv) (hr' ▸ hr)

/-- The transactions a command under way still issues or has outstanding (R73, R95). -/
def writesLeft (c : Ctrl) : Nat :=
  match c with
  | .initOsc => 3
  | .initDisp => 2
  | .initBrt | .frameTx => 1
  | .uninit | .ready | .failed | .code7 => 0

theorem busy_le_writesLeft (c : Ctrl) : c.busy.toNat ≤ writesLeft c := by
  cases c <;> decide

theorem writesLeft_le_busy (c : Ctrl) : writesLeft c ≤ 3 * c.busy.toNat := by
  cases c <;> decide

/-- The answer to a transaction gives the command's response, or goes on to the next write. -/
theorem answerRule_result (r : BusAnswer) {s : State} (hb : s.st.busy = true) :
    ((answerRule s.st r s).st.idle = true ∧ (answerRule s.st r s).respValid = true ∧
        respCode (answerRule s.st r s).resp ≤ 4) ∨
      ((answerRule s.st r s).st.busy = true ∧ (answerRule s.st r s).respValid = s.respValid ∧
        (answerRule s.st r s).resp = s.resp) := by
  cases hst : s.st <;> rw [hst] at hb
  case uninit | ready | failed | code7 => cases hb
  case initOsc | initDisp =>
    cases r with
    | ok => exact .inr ⟨rfl, rfl, rfl⟩
    | err e => exact .inl ⟨rfl, rfl, respCode_respond_le _ _ (errorCode_le _)⟩
  case initBrt | frameTx =>
    cases r with
    | ok => exact .inl ⟨rfl, rfl, respCode_respond_le _ _ (by decide)⟩
    | err e => exact .inl ⟨rfl, rfl, respCode_respond_le _ _ (errorCode_le _)⟩

/-- The answer to a transaction leaves one write fewer to come, at the least. -/
theorem writesLeft_answerRule (r : BusAnswer) {s : State} (hb : s.st.busy = true) :
    writesLeft (answerRule s.st r s).st + 1 ≤ writesLeft s.st := by
  cases hst : s.st <;> rw [hst] at hb
  case uninit | ready | failed | code7 => cases hb
  case initOsc | initDisp | initBrt | frameTx => cases r <;> exact Nat.le_of_ble_eq_true rfl

/-- The answer to a transaction leaves one response owed. -/
theorem answerRule_oneOwed (r : BusAnswer) {s : State} (hs : Serviceable s) (hb : s.st.busy = true) :
    OneOwed (answerRule s.st r s) := by
  rcases answerRule_result r hb with ⟨hst, hv, hr⟩ | ⟨hst, hv, hr⟩
  · exact .of_response hst hv hr
  · exact .of_transaction hst (hv.trans (hs.respFree hb)) (hr ▸ hs.resp)

/-! ## The account that every step keeps -/

/-- The transactions ended, and those that may still be issued for the commands accepted and offered: three each at most. -/
def issueBound (s : State) : Nat := s.busLog.length + writesLeft s.st + 3 * (pendingWords s).length

theorem issued_length (s : State) : s.issued.length = s.busLog.length + s.st.busy.toNat := by
  rcases outstanding_cases s with ⟨hb, ho, -⟩ | ⟨hb, tx, i, ho, -⟩
  · simp [issued_none ho, hb]
  · simp [issued_some ho, hb]

theorem issued_le_issueBound (s : State) : s.issued.length ≤ issueBound s := by
  have := busy_le_writesLeft s.st
  rw [issued_length, issueBound]
  omega

theorem issueBound_le_issued (s : State) : issueBound s ≤ s.issued.length + 3 * owed s := by
  have := writesLeft_le_busy s.st
  rw [issued_length, issueBound, owed]
  omega

/-- What holds between a state and a later one with no reset between: responses are neither lost nor made up (R102), and the
transactions stay within their bound. -/
structure Accounts (s t : State) : Prop where
  serviceable : Serviceable t
  responses : t.respLog.length + owed t = s.respLog.length + owed s
  writes : issueBound t ≤ issueBound s

theorem Accounts.refl {s : State} (h : Serviceable s) : Accounts s s := ⟨h, rfl, le_rfl⟩

theorem Accounts.trans {s t u : State} (h : Accounts s t) (h' : Accounts t u) : Accounts s u :=
  ⟨h'.serviceable, h'.responses.trans h.responses, h'.writes.trans h.writes⟩

/-- An accepted command turns one word to be accepted into one response owed. -/
theorem accounts_of_command {s u t : State} {w : Word} {i : Instr} (hs : Serviceable s) (hp : s.portReady = true)
    (hw : pendingWords s = w :: pendingWords u) (hu : u = { s with waiting := u.waiting, inputs := u.inputs })
    (hc : hostCommand i = true) (he : exec i u = .next t) : Accounts s t := by
  obtain ⟨hidle, hv⟩ := (portReady_iff s).mp hp
  have hpu : u.portReady = true := by rw [hu]; exact hp
  have hru : respCode u.resp ≤ 4 := by rw [hu]; exact hs.resp
  have hone := exec_hostCommand_oneOwed hc hpu hru he
  obtain ⟨-, hwait, hin, hlog, hresp, -⟩ := exec_hostCommand_frame hc he
  have hpend : (pendingWords s).length = (pendingWords t).length + 1 := by
    rw [hw, List.length_cons, pendingWords, pendingWords, hwait, hin]
  have hlog' : t.busLog = s.busLog := by rw [hlog, hu]
  have hresp' : t.respLog = s.respLog := by rw [hresp, hu]
  have hbusy : s.st.busy = false := Ctrl.busy_of_idle hidle
  refine ⟨hone.toServiceable, ?_, ?_⟩
  · have := hone.one
    simp only [owed, hresp', hpend, hbusy, hv, Bool.toNat_false]
    omega
  · have := writesLeft_le_busy t.st
    have := Bool.toNat_le t.st.busy
    simp only [issueBound, hlog', hpend]
    omega

/-- An answer ends one transaction, of those a command still issues. -/
theorem accounts_of_answer {s : State} {r : BusAnswer} {rest : List Input} (hs : Serviceable s)
    (hi : s.inputs = .answer r :: rest) (hb : s.st.busy = true) :
    Accounts s (answerRule s.st r (endTransaction r rest s)) := by
  obtain ⟨tx, -, htx, -⟩ := exists_outstanding_of_busy hb
  have hst : (endTransaction r rest s).st = s.st := endTransaction_st r rest s
  have hs' : Serviceable (endTransaction r rest s) := ⟨by simpa using hs.st, by simpa using hs.respFree, by simpa using hs.resp⟩
  have hone := answerRule_oneOwed r hs' (hst ▸ hb)
  have hleft := writesLeft_answerRule r (s := endTransaction r rest s) (hst ▸ hb)
  rw [hst] at hone hleft
  obtain ⟨hin, hlog, -⟩ := answerRule_endTransaction htx s.st r rest
  have hpend : pendingWords (answerRule s.st r (endTransaction r rest s)) = pendingWords s := by
    rw [pendingWords, hin, answerRule_frame]
    simp [pendingWords, hi]
  have hresp : (answerRule s.st r (endTransaction r rest s)).respLog = s.respLog := by
    rw [answerRule_frame]
    simp
  refine ⟨hone.toServiceable, ?_, ?_⟩
  · have := hone.one
    simp only [owed, hresp, hpend, hb, hs.respFree hb, Bool.toNat_false, Bool.toNat_true]
    omega
  · simp only [issueBound, hlog, hpend, List.length_append, List.length_singleton]
    omega

/-- Every step but a reset keeps the account. -/
theorem step_accounts {s t : State} (hs : Serviceable s) (hr : resetNext s = false) (h : step s = .next t) :
    Accounts s t := by
  cases step_cases h with
  | reset rest hi hr' => exact absurd (hr.symm.trans hr') (by decide)
  | command w u hp _ _ hw hu he => exact accounts_of_command hs hp hw hu (decodeCommand_hostCommand _ _) he
  | surroundings _ _ hw _ ht =>
    have hst : t.st = s.st := by rw [ht]
    have hv : t.respValid = s.respValid := by rw [ht]
    have hresp : t.resp = s.resp := by rw [ht]
    have hrlog : t.respLog = s.respLog := by rw [ht]
    have hblog : t.busLog = s.busLog := by rw [ht]
    refine ⟨⟨hst ▸ hs.st, ?_, hresp ▸ hs.resp⟩, ?_, ?_⟩
    · rw [hst, hv]; exact hs.respFree
    · rw [owed, owed, hw, hst, hv, hrlog]
    · rw [issueBound, issueBound, hw, hst, hblog]
  | take rest hi _ _ hv _ ht =>
    subst ht
    have hpend : pendingWords { s with inputs := rest, respValid := false, respLog := s.respLog ++ [s.resp] } =
        pendingWords s := by
      simp [pendingWords, hi]
    refine ⟨⟨hs.st, fun _ => rfl, hs.resp⟩, ?_, ?_⟩
    · simp only [owed, hpend, hv, List.length_append, List.length_singleton, Bool.toNat_false, Bool.toNat_true]
      omega
    · rw [issueBound, hpend, issueBound]
  | answer r rest i hi _ _ hb _ _ ht => exact ht ▸ accounts_of_answer hs hi hb

/-! ## A schedule runs out -/

/-- A bound on the steps to come: a move is used up, or turned into a waiting word, which is then accepted. -/
def movesLeft (s : State) : Nat := 2 * s.inputs.length + s.waiting.length

/-- Nothing is left to do: no move is to come, no word can be accepted, and the step answers the same state (R122, R135, log
entry 6). -/
structure AtRest (s : State) : Prop where
  step : step s = .next s
  inputs : s.inputs = []
  waiting : s.portReady = true → s.waiting = []

/-- A step that answers a next state is at rest, or brings the schedule forward. -/
theorem step_rests_or_moves {s t : State} (h : step s = .next t) :
    AtRest s ∨ (movesLeft t < movesLeft s ∧ t.inputs <:+ s.inputs) := by
  have hm := nextMove_cases s
  generalize hmv : nextMove s = mv at hm
  cases hm with
  | reset rest hi =>
    obtain rfl := Host.Outcome.next.inj ((step_done hmv).symm.trans h)
    simp [movesLeft, hi]
  | unreachable => exact absurd ((step_done hmv).symm.trans h) (by simp)
  | acceptWaiting w ws _ _ hw =>
    obtain ⟨-, hwait, hin, -⟩ :=
      exec_hostCommand_frame (decodeCommand_hostCommand _ _) ((step_run hmv).symm.trans h)
    simp [movesLeft, hwait, hin, hw]
  | acceptOffer w rest _ _ hi =>
    obtain ⟨-, hwait, hin, -⟩ :=
      exec_hostCommand_frame (decodeCommand_hostCommand _ _) ((step_run hmv).symm.trans h)
    simp [movesLeft, hwait, hin, hi]
  | offerWaits w rest _ hi =>
    obtain rfl := Host.Outcome.next.inj ((step_done hmv).symm.trans h)
    refine .inr ⟨?_, by simp [hi]⟩
    simp only [movesLeft, hi, List.length_append, List.length_cons, List.length_nil]
    omega
  | take rest _ hi =>
    obtain ⟨-, -, rfl⟩ := takeResponse_next ((step_done hmv).symm.trans h)
    simp [movesLeft, hi]
  | answer r rest i _ hi ho =>
    have he := (exec_answered ho hi).symm.trans ((step_run hmv).symm.trans h)
    split at he <;> cases he
    rw [answerRule_frame]
    simp [movesLeft, hi]
  | usedUpAnswer r rest _ _ hi =>
    obtain rfl := Host.Outcome.next.inj ((step_done hmv).symm.trans h)
    simp [movesLeft, hi]
  | quiet hi hw => exact .inl ⟨step_done hmv, hi, hw⟩

theorem resetNext_of_noResets {s : State} (h : noResets s = true) : resetNext s = false := by
  apply resetNext_eq_false
  intro rest hi
  simp [noResets, hi] at h

theorem noResets_of_suffix {s t : State} (hsuf : t.inputs <:+ s.inputs) (h : noResets s = true) : noResets t = true := by
  simp only [noResets, List.all_eq_true] at h ⊢
  exact fun m hm => h m (hsuf.subset hm)

/-- A schedule with no reset meets a move the spec does not give, or comes to rest with the account kept. -/
theorem reaches_rest (s : State) (hs : Serviceable s) (hn : noResets s = true) :
    ∃ n, runSteps n s = .refused .noResponseToTake ∨ runSteps n s = .refused .wideErrorCode ∨
      ∃ t, runSteps n s = .next t ∧ AtRest t ∧ Accounts s t := by
  induction hk : movesLeft s using Nat.strong_induction_on generalizing s with
  | _ k ih =>
  cases ha : moveAllowed s with
  | false =>
    refine ⟨1, ?_⟩
    rcases hs.step_of_not_moveAllowed ha with h | h
    · exact .inl (by simp [runSteps, h])
    · exact .inr (.inl (by simp [runSteps, h]))
  | true =>
    obtain ⟨t, ht⟩ := hs.step_of_moveAllowed ha
    rcases step_rests_or_moves ht with hrest | ⟨hlt, hsuf⟩
    · exact ⟨0, .inr (.inr ⟨s, rfl, hrest, .refl hs⟩)⟩
    · have hacc := step_accounts hs (resetNext_of_noResets hn) ht
      obtain ⟨n, hrun⟩ := ih _ (hk ▸ hlt) t hacc.serviceable (noResets_of_suffix hsuf hn) rfl
      have hsucc : runSteps (n + 1) s = runSteps n t := by simp [runSteps, ht]
      refine ⟨n + 1, ?_⟩
      rw [hsucc]
      exact hrun.imp_right (Or.imp_right fun ⟨u, hu, hr, hau⟩ => ⟨u, hu, hr, hacc.trans hau⟩)

/-- A serviceable state at rest has ended its run, hangs on the bus, or waits for its host. -/
theorem AtRest.ended_or_hangs_or_stuck {t : State} (h : AtRest t) (hs : Serviceable t) :
    runEnded t = true ∨ (t.st.busy = true ∧ t.respValid = false) ∨ (t.st.idle = true ∧ t.respValid = true) := by
  cases hidle : t.st.idle with
  | false =>
    have hb : t.st.busy = true := by
      have h7 := hs.st
      cases hst : t.st <;> simp_all [Ctrl.idle, Ctrl.busy]
    exact .inr (.inl ⟨hb, hs.respFree hb⟩)
  | true =>
    cases hv : t.respValid with
    | true => exact .inr (.inr ⟨rfl, rfl⟩)
    | false =>
      have hw := h.waiting ((portReady_iff t).mpr ⟨hidle, hv⟩)
      exact .inl (by simp [runEnded, hidle, hv, hw, h.inputs])

/-- At rest, nothing is owed in an ended run (R107). -/
theorem AtRest.owed_of_runEnded {t : State} (h : AtRest t) (he : runEnded t = true) : owed t = 0 := by
  simp only [runEnded, Bool.and_eq_true, Bool.not_eq_true', List.isEmpty_iff] at he
  obtain ⟨⟨⟨hidle, hv⟩, hw⟩, -⟩ := he
  simp [owed, pendingWords, hw, h.inputs, hv, Ctrl.busy_of_idle hidle]

/-- Settles O57: a schedule reaches rest by its measure, and each step keeps the account. -/
theorem everyScheduleEndsHangsOrIsStuck : Obligations.EveryScheduleEndsHangsOrIsStuck := by
  intro s hs hn
  obtain ⟨n, h | h | ⟨t, hrun, hrest, hacc⟩⟩ := reaches_rest s hs.serviceable hn
  · exact ⟨n, .inl h⟩
  · exact ⟨n, .inr (.inl h)⟩
  · have hissued : t.issued.length ≤ s.issued.length + 3 * owed s :=
      (issued_le_issueBound t).trans (hacc.writes.trans (issueBound_le_issued s))
    exact ⟨n, .inr (.inr ⟨t, hrun, hrest.step, hrest.inputs, hrest.ended_or_hangs_or_stuck hacc.serviceable,
      hacc.responses, hrest.owed_of_runEnded, hissued⟩)⟩

end Sys2Proof

/-! PROOFS of the family 10_state: what a host command does, and what a step writes of the registers. -/

namespace Sys2Proof

open Machine

/-! ## What a host command does to the encoder -/

/-- `u` is written, of all that is not the response or the surroundings, in the encoder's registers only. -/
structure EncoderOnly (s u : State) : Prop where
  st : u.st = s.st
  addr : u.addr = s.addr
  mapSel : u.mapSel = s.mapSel
  txbuf : u.txbuf = s.txbuf
  build : u.build = s.build

theorem EncoderOnly.refl (s : State) : EncoderOnly s s := ⟨rfl, rfl, rfl, rfl, rfl⟩

/-- `u` is `s` after some commits and writes of the pending character, which leave no mask where none is pending (R28): what
CHAR and MASK do in READY (R88, R89). -/
inductive Encodes (s : State) : State → Prop
  | refl : Encodes s s
  | commit {u : State} (h : Encodes s u) (m : Mask) : Encodes s (commit m u)
  | setPending {u : State} (h : Encodes s u) (p : Bool) (m : Mask) (hm : p = false → m = 0) :
      Encodes s { u with pend := p, pmask := m }

theorem encodes_flushPending (s : State) : Encodes s (flushPending s) := by
  rcases flushPending_cases s with ⟨-, h⟩ | ⟨-, h⟩ <;> rw [h]
  · exact (Encodes.refl.commit _).setPending _ _ fun _ => rfl
  · exact .refl

theorem Encodes.encoderOnly {s u : State} (h : Encodes s u) : EncoderOnly s u := by
  induction h with
  | refl => exact .refl s
  | commit _ m ih =>
    exact ⟨(commit_st m _).trans ih.st, (commit_addr m _).trans ih.addr, (commit_mapSel m _).trans ih.mapSel,
      (commit_txbuf m _).trans ih.txbuf, (commit_build m _).trans ih.build⟩
  | setPending _ p m _ ih => exact { ih with }

/-- Encoding never clears the overflow (R19). -/
theorem Encodes.ovf_sticks {s u : State} (h : Encodes s u) (ho : s.ovf = true) : u.ovf = true := by
  induction h with
  | refl => exact ho
  | commit _ m ih => rw [commit_ovf]; split <;> [exact ih; rfl]
  | setPending _ p m _ ih => exact ih

/-- Encoding sets the overflow with at least four cells committed only (R87). -/
theorem Encodes.full_of_ovf {s u : State} (h : Encodes s u) (ho : s.ovf = false) (hu : u.ovf = true) :
    4 ≤ u.ncells.toNat := by
  induction h with
  | refl => simp [ho] at hu
  | @commit u _ m ih =>
    rcases commit_cases m u with ⟨hlt, e⟩ | ⟨hle, e⟩ <;> rw [e] at hu ⊢
    · exact absurd (ih hu) (Nat.not_le.mpr hlt)
    · exact hle
  | setPending _ p m _ ih => exact ih hu

/-- The encoder after a command that responds: as it was, clear, or, for CHAR and MASK in READY, encoded further. -/
inductive EncoderEffect (i : Instr) (s : State) : State → Prop
  | unchanged : EncoderEffect i s s
  | cleared : EncoderEffect i s (encClear s)
  | encoded {u : State} (hi : (∃ cp, i = .char cp) ∨ ∃ m, i = .mask m) (hst : s.st = .ready) (hu : Encodes s u) :
      EncoderEffect i s u

theorem EncoderEffect.encoderOnly {i : Instr} {s u : State} (h : EncoderEffect i s u) : EncoderOnly s u := by
  cases h with
  | unchanged | cleared => exact ⟨rfl, rfl, rfl, rfl, rfl⟩
  | encoded _ _ hu => exact hu.encoderOnly

/-! ## What a step writes -/

/-- SHOW clears the encoder whatever the flush before has left. -/
@[simp] theorem encClear_flushPending (s : State) : encClear (flushPending s) = encClear s := by
  rcases flushPending_cases s with ⟨-, h⟩ | ⟨-, h⟩ <;> rw [h]
  rcases commit_cases s.pmask s with ⟨-, h⟩ | ⟨-, h⟩ <;> rw [h] <;> rfl

/-- What a host command does: it responds, with a code other than BUS_ERROR, or it starts the bring-up or a frame write. -/
inductive CommandCase (i : Instr) (s t : State) : Prop
  | responds (code : BitVec 4) (data : BitVec 28) (u : State) (hu : EncoderEffect i s u) (hle : code ≤ 4) (hne : code ≠ 1)
      (ht : t = respond code data u)
  | startsBringUp (a : DevAddr) (c : Bool) (hi : i = .init a c) (hc : c = true → s.build.hasCustomMap = true)
      (ht : t = { encClear s with addr := a, mapSel := c, st := .initOsc })
  | startsFrame (c : Cells) (n : Nat) (hi : i = .showText) (hst : s.st = .ready)
      (ht : t = { encClear s with txbuf := pack c n, st := .frameTx })

/-- A host command's next state is one of these cases. -/
theorem exec_hostCommand_cases {i : Instr} {s t : State} (hc : hostCommand i = true) (h : exec i s = .next t) :
    CommandCase i s t := by
  cases i <;> simp only [exec] at h
  case nop | status | lookup =>
    cases h
    exact .responds 0 _ s .unchanged (by decide) (by decide) rfl
  case reserved =>
    cases h
    exact .responds 4 0 s .unchanged (by decide) (by decide) rfl
  case clear =>
    cases h
    exact .responds 0 0 _ .cleared (by decide) (by decide) rfl
  case init a c =>
    unfold execInit at h
    split at h <;> cases h
    · exact .responds 4 0 s .unchanged (by decide) (by decide) rfl
    · next hmap => exact .startsBringUp a c rfl (by simpa using hmap) rfl
  case char cp =>
    unfold execChar at h
    split at h
    · cases h
      exact .responds 3 0 _ .cleared (by decide) (by decide) rfl
    next hst =>
    replace hst : s.st = .ready := by simpa using hst
    split at h <;> cases h
    · have hu := (Encodes.refl.commit (decorate s.pmask)).setPending false 0 (s := s) fun _ => rfl
      exact .responds 0 0 _ (.encoded (.inl ⟨cp, rfl⟩) hst hu) (by decide) (by decide) rfl
    · have hflush : Encodes s (if s.pend then commit s.pmask s else s) := by
        split <;> [exact Encodes.refl.commit _; exact .refl]
      have hu := hflush.setPending true (lutRead (if s.pend then commit s.pmask s else s) cp) (by simp)
      exact .responds 0 0 _ (.encoded (.inl ⟨cp, rfl⟩) hst hu) (by decide) (by decide) rfl
  case mask m =>
    unfold execMask at h
    split at h <;> cases h
    · exact .responds 3 0 _ .cleared (by decide) (by decide) rfl
    · next hst =>
      exact .responds 0 0 _ (.encoded (.inr ⟨m, rfl⟩) (by simpa using hst) ((encodes_flushPending s).commit m))
        (by decide) (by decide) rfl
  case showText =>
    unfold execShowText at h
    split at h
    · cases h
      exact .responds 3 0 _ .cleared (by decide) (by decide) rfl
    next hst =>
    simp only [encClear_flushPending] at h
    split at h <;> cases h
    · exact .responds 2 0 _ .cleared (by decide) (by decide) rfl
    · exact .startsFrame _ _ rfl (by simpa using hst) rfl
  all_goals cases hc

/-- A command accepted in a step runs on `s` but for the waiting words and the moves to come. -/
theorem commandCase_of_accepted {s u t : State} {w : Word} (hu : u = { s with waiting := u.waiting, inputs := u.inputs })
    (he : exec (decodeCommand s.build.hasCustomMap w) u = .next t) :
    ∃ ws ins, CommandCase (decodeCommand s.build.hasCustomMap w) { s with waiting := ws, inputs := ins } t :=
  ⟨u.waiting, u.inputs, hu ▸ exec_hostCommand_cases (decodeCommand_hostCommand _ _) he⟩

/-- Where an answer moves `st` (R75, R76, R77, R96). -/
def AnswerMoves (c c' : Ctrl) : Prop :=
  (c = .initOsc ∧ (c' = .initDisp ∨ c' = .failed)) ∨ (c = .initDisp ∧ (c' = .initBrt ∨ c' = .failed)) ∨
    (c = .initBrt ∧ (c' = .ready ∨ c' = .failed)) ∨ (c = .frameTx ∧ c' = .ready)

theorem answerMoves_answerRule {c : Ctrl} (hb : c.busy = true) (r : BusAnswer) (s : State) :
    AnswerMoves c (answerRule c r s).st := by
  cases c
  case uninit | ready | failed | code7 => cases hb
  case initOsc | initDisp | initBrt | frameTx =>
    cases r <;>
      simp [AnswerMoves, answerRule, oscAnswered, dispAnswered, brtAnswered, frameAnswered, bringUpFailed]

/-- What a step writes of the registers that are neither `resp` nor `resp_valid`: all of them in a reset, what the accepted
command says, and else `st` at most, by an answer. -/
inductive StepWrites (s t : State) : Prop
  | reset (hr : resetNext s = true) (rest : List Input) (ht : t = resetBlock { s with inputs := rest })
  | command (i : Instr) (ws : List Word) (ins : List Input) (hn : nextCommand s = some i)
      (hc : CommandCase i { s with waiting := ws, inputs := ins } t)
  | noCommand (hst : t.st = s.st ∨ (answerNext s = true ∧ AnswerMoves s.st t.st)) (haddr : t.addr = s.addr)
      (hmap : t.mapSel = s.mapSel) (htx : t.txbuf = s.txbuf) (hovf : t.ovf = s.ovf) (hbuild : t.build = s.build)

theorem step_writes {s t : State} (h : step s = .next t) : StepWrites s t := by
  cases step_cases h with
  | reset rest hi hr hn ht => exact .reset hr rest ht
  | command w u hp hr hn hw hu he =>
    obtain ⟨ws, ins, hc⟩ := commandCase_of_accepted hu he
    exact .command _ ws ins hn hc
  | surroundings hr hn hw ha ht => rw [ht]; exact .noCommand (.inl rfl) rfl rfl rfl rfl rfl
  | take rest hi hr hn hv hc ht => rw [ht]; exact .noCommand (.inl rfl) rfl rfl rfl rfl rfl
  | answer r rest i hi hr hn hb ho hf ht =>
    have hst : AnswerMoves s.st t.st := ht ▸ answerMoves_answerRule hb r _
    rw [answerRule_frame] at ht
    exact .noCommand (.inr ⟨by simp [answerNext, hi], hst⟩) (by simp [ht]) (by simp [ht]) (by simp [ht]) (by simp [ht])
      (by simp [ht])

end Sys2Proof

/-! PROOFS of the family 10_state: every step keeps the state legal, and reset is legal. -/

namespace Sys2Proof

open Machine

/-! ## Legality, update by update -/

theorem encoderClear_encClear (s : State) : EncoderClear (encClear s) := ⟨rfl, rfl, rfl, rfl, rfl⟩

/-- The outstanding transaction of a legal state is one of the four patterns (R56). -/
theorem Legal.outstanding_sendable {s : State} {tx : Transaction} (h : Legal s) (ho : outstanding s = some tx) :
    tx.Sendable := by
  unfold outstanding at ho
  cases hst : s.st <;> rw [hst] at ho <;> cases ho
  case initOsc => exact .inl ⟨rfl, .inl rfl⟩
  case initDisp => exact .inl ⟨rfl, .inr (.inl rfl)⟩
  case initBrt => exact .inl ⟨rfl, .inr (.inr rfl)⟩
  case frameTx => exact .inr ⟨rfl, rfl, congrArg some h.txbuf⟩

/-- Words that wait and moves to come have no part in legality. -/
theorem Legal.withSurroundings {s : State} (h : Legal s) (ws : List Word) (ins : List Input) :
    Legal { s with waiting := ws, inputs := ins } :=
  { h with clear := fun hst => { h.clear hst with } }

theorem Legal.withResponseTaken {s : State} (h : Legal s) (ins : List Input) (log : List Word) :
    Legal { s with inputs := ins, respValid := false, respLog := log } :=
  { h with clear := fun hst => { h.clear hst with }, respFree := fun _ => rfl }

theorem Legal.withEncoderClear {s : State} (h : Legal s) : Legal (encClear s) :=
  { h with
    ncells := by simp
    freeCells := by simp
    pmask := fun _ => rfl
    ovf := by simp
    clear := fun _ => encoderClear_encClear s }

/-- With the encoder clear, the controller may go where no response is in the way (R101). -/
theorem Legal.withSt {s : State} (h : Legal s) (hclear : EncoderClear s) {c : Ctrl} (h7 : c ≠ .code7)
    (hfree : c.busy = true → s.respValid = false) : Legal { s with st := c } :=
  { h with st := h7, clear := fun _ => { hclear with }, respFree := hfree }

/-- A response is legal in a state that is not busy (R101), with a code of R54 and, for BUS_ERROR, the bits of R54. -/
theorem Legal.respond {s : State} (h : Legal s) (hb : s.st.busy = false) {code : BitVec 4} {data : BitVec 28}
    (hle : code ≤ 4)
    (herr : code = 1 → data.extractLsb' 24 2 = 0 ∧ (data.extractLsb' 0 24).toNat < 2 ^ s.build.busErrWidth) :
    Legal (respond code data s) :=
  { h with
    clear := fun hst => { h.clear hst with }
    respFree := by simp [hb]
    resp := by simpa using hle
    errorBits := by simpa using herr }

/-- A commit keeps the cells legal (R27, R28): a free one is filled, or all four are in use. -/
theorem Legal.commit {s : State} (h : Legal s) (hst : s.st = .ready) (m : Mask) : Legal (commit m s) := by
  have hle : s.ncells.toNat ≤ 4 := h.ncells
  rcases commit_cases m s with ⟨hlt, e⟩ | ⟨hfull, e⟩ <;> rw [e]
  · have hsucc : (s.ncells + 1).toNat = s.ncells.toNat + 1 := by rw [BitVec.toNat_add]; simp; omega
    exact { h with
      ncells := by rw [BitVec.le_def, hsucc]; exact hlt
      freeCells := by
        intro k hk hk3
        replace hk : s.ncells.toNat + 1 ≤ k := hsucc ▸ hk
        exact (Cells.get_set_other _ m (by omega)).trans (h.freeCells k (by omega) hk3)
      ovf := by
        intro ho
        rw [h.ovf ho] at hlt
        exact absurd hlt (by decide)
      clear := fun hne => absurd hst hne }
  · exact { h with
      ovf := fun _ => BitVec.eq_of_toNat_eq (Nat.le_antisymm hle hfull)
      clear := fun hne => absurd hst hne }

/-- Encoding in READY keeps the state legal. -/
theorem Legal.encodes {s u : State} (h : Legal s) (hst : s.st = .ready) (hu : Encodes s u) : Legal u := by
  induction hu with
  | refl => exact h
  | commit hu m ih => exact ih.commit (hu.encoderOnly.st.trans hst) m
  | setPending hu p m hm ih =>
    exact { ih with pmask := hm, clear := fun hne => absurd (hu.encoderOnly.st.trans hst) hne }

theorem Legal.encoderEffect {i : Instr} {s u : State} (h : Legal s) (hu : EncoderEffect i s u) : Legal u := by
  cases hu with
  | unchanged => exact h
  | cleared => exact h.withEncoderClear
  | encoded _ hst hu => exact h.encodes hst hu

/-- A command on a ready port keeps the state legal. -/
theorem Legal.command {i : Instr} {s t : State} (h : Legal s) (hp : s.portReady = true) (hc : CommandCase i s t) :
    Legal t := by
  obtain ⟨hidle, hv⟩ := (portReady_iff s).mp hp
  cases hc with
  | responds code data u hu hle hne ht =>
    rw [ht]
    have hb : u.st.busy = false := by rw [hu.encoderOnly.st]; exact Ctrl.busy_of_idle hidle
    exact (h.encoderEffect hu).respond hb hle fun hcode => absurd hcode hne
  | startsBringUp a c hi hmap ht =>
    rw [ht]
    have hlatched : Legal { encClear s with addr := a, mapSel := c } :=
      { h.withEncoderClear with clear := fun _ => { encoderClear_encClear s with }, mapSel := hmap }
    exact hlatched.withSt { encoderClear_encClear s with } (by decide) fun _ => hv
  | startsFrame cells n hi hst ht =>
    rw [ht]
    have hpacked : Legal { encClear s with txbuf := pack cells n } :=
      { h.withEncoderClear with clear := fun _ => { encoderClear_encClear s with }, txbuf := rfl }
    exact hpacked.withSt { encoderClear_encClear s with } (by decide) fun _ => hv

/-! ## Legality of answers and resets -/

/-- The end of a transaction keeps the state legal: it is one of the four patterns, and its answer is the bus's. -/
theorem Legal.endTransaction {s : State} {tx : Transaction} (h : Legal s) (ho : outstanding s = some tx) {r : BusAnswer}
    (hf : r.fits s.build = true) (rest : List Input) : Legal (endTransaction r rest s) := by
  rw [endTransaction_some r rest ho]
  exact { h with
    clear := fun hst => { h.clear hst with }
    busLog := by
      intro e he
      rcases List.mem_append.mp he with he | he
      · exact h.busLog e he
      · rw [List.mem_singleton.mp he]
        exact h.outstanding_sendable ho
    answers := by
      intro e he a ha
      rcases List.mem_append.mp he with he | he
      · exact h.answers e he a ha
      · rw [List.mem_singleton.mp he] at ha
        cases ha
        exact hf
    ram := by
      cases r with
      | ok => exact Chip.told_ram_wf _ h.ram
      | err e => exact Chip.mayHaveTold_ram_wf _ h.ram }

/-- A BUS_ERROR word holds zero beside the stage, and the code it was given (R54). -/
theorem busTransaction_errorBits (stage : BitVec 2) (e : BitVec 24) :
    (errorData (.busTransaction stage e)).extractLsb' 24 2 = 0 ∧
      (errorData (.busTransaction stage e)).extractLsb' 0 24 = e := by
  constructor
  · rw [errorData, BitVec.extractLsb'_append_eq_of_le (by omega)]
    exact BitVec.extractLsb'_append_eq_of_add_le (by omega)
  · rw [errorData, BitVec.extractLsb'_append_eq_of_add_le (by omega)]
    exact BitVec.extractLsb'_eq_self

/-- A reported bus error is legal where the controller is not busy and the code is one of the bus. -/
theorem Legal.raise_busTransaction {s : State} (h : Legal s) (hb : s.st.busy = false) (stage : BitVec 2) {e : BitVec 24}
    (hf : (BusAnswer.err e).fits s.build = true) : Legal (raise (.busTransaction stage e) s) := by
  obtain ⟨hzero, hcode⟩ := busTransaction_errorBits stage e
  exact h.respond hb (errorCode_le _) fun _ => ⟨hzero, hcode.symm ▸ by simpa using hf⟩

/-- The rule of an answer keeps a busy state legal. -/
theorem Legal.answerRule {s : State} (h : Legal s) (hb : s.st.busy = true) {r : BusAnswer}
    (hf : r.fits s.build = true) : Legal (answerRule s.st r s) := by
  have hclear : EncoderClear s := h.clear (by rintro hst; simp [hst, Ctrl.busy] at hb)
  have hmoved : ∀ c, c ≠ .code7 → Legal { s with st := c } := fun c h7 => h.withSt hclear h7 fun _ => h.respFree hb
  have hok : Legal (respondOk 0 { s with st := .ready }) :=
    (hmoved .ready (by decide)).respond rfl (by decide) (by simp)
  have herr : ∀ c stage e, c ≠ .code7 → c.busy = false → r = .err e →
      Legal (raise (.busTransaction stage e) { s with st := c }) :=
    fun c stage e h7 hb' hr => (hmoved c h7).raise_busTransaction hb' stage (hr ▸ hf)
  cases hst : s.st <;> rw [hst] at hb
  case uninit | ready | failed | code7 => cases hb
  case initOsc | initDisp =>
    cases r with
    | ok => exact hmoved _ (by decide)
    | err e => exact herr .failed _ e (by decide) rfl rfl
  case initBrt =>
    cases r with
    | ok => exact hok
    | err e => exact herr .failed 2 e (by decide) rfl rfl
  case frameTx =>
    cases r with
    | ok => exact hok
    | err e => exact herr .ready 3 e (by decide) rfl rfl

/-- A reset records the outstanding transaction as issued and not answered. -/
theorem resetBlock_busLog (s : State) : (resetBlock s).busLog = s.issued := by
  unfold resetBlock State.issued
  cases outstanding s <;> rfl

/-- A transaction issued has ended, or is the outstanding one. -/
theorem mem_issued {s : State} {e : BusRecord} (he : e ∈ s.issued) :
    e ∈ s.busLog ∨ ∃ tx, outstanding s = some tx ∧ e = ⟨tx, none⟩ := by
  cases ho : outstanding s with
  | none => exact .inl (issued_none ho ▸ he)
  | some tx => simpa [issued_some ho] using he

/-- A reset leaves a legal state wherever the observation and what is known of the chip's RAM are legal. -/
theorem legal_resetBlock {s : State} (hlog : ∀ e ∈ s.issued, e.tx.Sendable)
    (hans : ∀ e ∈ s.issued, ∀ r, e.answer = some r → r.fits s.build = true) (hram : s.chip.ram.wf = true) :
    Legal (resetBlock s) where
  st := by simp
  ncells := by simp
  freeCells := by simp
  pmask := by simp
  ovf := by simp
  clear := fun _ => ⟨rfl, rfl, rfl, rfl, rfl⟩
  respFree := by simp
  mapSel := by simp
  txbuf := rfl
  resp := show respCode 0 ≤ 4 by decide
  busLog := by rwa [resetBlock_busLog]
  errorBits := fun hcode => absurd hcode (show respCode 0 ≠ 1 by decide)
  answers := by rwa [resetBlock_busLog]
  ram := by
    unfold resetBlock
    cases outstanding s with
    | none => exact hram
    | some tx => exact Chip.mayHaveTold_ram_wf _ hram

theorem Legal.resetBlock {s : State} (h : Legal s) : Legal (resetBlock s) := by
  refine legal_resetBlock ?_ ?_ h.ram
  · intro e he
    rcases mem_issued he with he | ⟨tx, ho, rfl⟩
    · exact h.busLog e he
    · exact h.outstanding_sendable ho
  · intro e he r hr
    rcases mem_issued he with he | ⟨tx, ho, rfl⟩
    · exact h.answers e he r hr
    · cases hr

/-- Settles O48: each case of the step is an update that keeps the state legal. -/
theorem stepKeepsTheStateLegal : Obligations.StepKeepsTheStateLegal := by
  intro s t h hstep
  cases step_cases hstep with
  | reset rest hi hr hn ht => exact ht ▸ (h.withSurroundings s.waiting rest).resetBlock
  | command w u hp hr hn hw hu he =>
    obtain ⟨ws, ins, hc⟩ := commandCase_of_accepted hu he
    exact (h.withSurroundings ws ins).command hp hc
  | surroundings hr hn hw ha ht => exact ht ▸ h.withSurroundings t.waiting t.inputs
  | take rest hi hr hn hv hc ht => exact ht ▸ h.withResponseTaken rest _
  | answer r rest i hi hr hn hb ho hf ht =>
    obtain ⟨tx, -, htx, -⟩ := exists_outstanding_of_busy hb
    have hend := h.endTransaction htx hf rest
    have hrule := hend.answerRule (r := r) (by simpa using hb) (by simpa using hf)
    rw [endTransaction_st] at hrule
    exact ht ▸ hrule

/-- Settles O49: the reset state is what a reset leaves of itself, and nothing has been observed in it. -/
theorem resetStateIsLegal : Obligations.ResetStateIsLegal :=
  legal_resetBlock (s := State.reset) (fun e he => by cases he) (fun e he => by cases he) rfl

end Sys2Proof

/-! PROOFS of the family 10_state: the outstanding transaction, and which steps write which registers. -/

namespace Sys2Proof

open Machine

theorem Machine.Ctrl.idle_iff (c : Ctrl) : c.idle = true ↔ c = .uninit ∨ c = .ready ∨ c = .failed := by
  cases c <;> decide

theorem Machine.Ctrl.busy_iff (c : Ctrl) :
    c.busy = true ↔ c = .initOsc ∨ c = .initDisp ∨ c = .initBrt ∨ c = .frameTx := by
  cases c <;> decide

theorem busy_iff_outstanding (s : State) : s.st.busy = true ↔ ∃ tx, outstanding s = some tx := by
  rcases outstanding_cases s with ⟨hb, ho, -⟩ | ⟨hb, tx, i, ho, -⟩ <;> simp [hb, ho]

/-- A busy state lasts until the answer or a reset (R32). -/
theorem step_busy_lasts {s t : State} (hb : s.st.busy = true) (ha : answerNext s = false) (hr : resetNext s = false)
    (h : step s = .next t) : t.st = s.st ∧ outstanding t = outstanding s := by
  cases step_cases h with
  | reset rest hi hr' => exact absurd (hr.symm.trans hr') (by decide)
  | command w u hp => exact absurd (hp.symm.trans (portReady_of_busy hb)) (by decide)
  | surroundings _ _ _ _ ht => rw [ht]; exact ⟨rfl, rfl⟩
  | take rest _ _ _ _ _ ht => rw [ht]; exact ⟨rfl, rfl⟩
  | answer r rest i hi => simp [answerNext, hi] at ha

/-- Settles O17: the table of R32 is the definition of `outstanding`, read state by state. -/
theorem outstandingTransactionIsAFunctionOfTheState : Obligations.OutstandingTransactionIsAFunctionOfTheState := by
  intro s
  refine ⟨?_, ?_, ?_, ?_, Ctrl.idle_iff _, Ctrl.busy_iff _, outstanding_of_idle, busy_iff_outstanding s,
    fun tx i => encode_outstandingInstr, fun t => step_busy_lasts⟩ <;>
  · intro hst
    cases s
    cases hst
    rfl

/-- Settles O51: of what a step writes, a response leaves `st`. -/
theorem onlyTheNamedRulesWriteSt : Obligations.OnlyTheNamedRulesWriteSt := by
  refine ⟨rfl, fun s t h hne => ?_⟩
  cases step_writes h with
  | reset hr rest ht => exact .inl ⟨hr, by rw [ht]; rfl⟩
  | command i ws ins hn hc =>
    cases hc with
    | responds code data u hu hle hcode ht => exact absurd (ht ▸ hu.encoderOnly.st) hne
    | startsBringUp a c hi hmap ht => exact .inr (.inl ⟨a, c, hi ▸ hn, by rw [ht]⟩)
    | startsFrame cells n hi hst ht => exact .inr (.inr (.inl ⟨hi ▸ hn, hst, by rw [ht]⟩))
  | noCommand hst => exact .inr (.inr (.inr (hst.resolve_left hne)))

/-- Settles O52: of what a step writes, only a bring-up and a reset touch `addr` and `map_sel`. -/
theorem onlyInitWritesAddressAndMap : Obligations.OnlyInitWritesAddressAndMap := by
  constructor
  · intro s tx ho
    unfold outstanding at ho
    split at ho <;> cases ho <;> rfl
  · intro s t h hne
    cases step_writes h with
    | reset hr rest ht => exact .inl hr
    | command i ws ins hn hc =>
      cases hc with
      | responds code data u hu hle hcode ht =>
        rw [ht] at hne
        exact absurd hne (by simp [hu.encoderOnly.addr, hu.encoderOnly.mapSel])
      | startsBringUp a c hi hmap ht => exact .inr ⟨a, c, hi ▸ hn, by rw [ht], by rw [ht]⟩
      | startsFrame cells n hi hst ht =>
        rw [ht] at hne
        exact absurd hne (by simp)
    | noCommand hst haddr hmap => exact absurd hne (by simp [haddr, hmap])

/-- Settles O53: of what a step writes, only a frame write and a reset touch `txbuf`. -/
theorem onlyShowWritesTheFrameBuffer : Obligations.OnlyShowWritesTheFrameBuffer := by
  intro s t h hne
  cases step_writes h with
  | reset hr rest ht => exact .inl hr
  | command i ws ins hn hc =>
    cases hc with
    | responds code data u hu hle hcode ht => exact absurd (ht ▸ hu.encoderOnly.txbuf) hne
    | startsBringUp a c hi hmap ht => exact absurd (ht ▸ rfl) hne
    | startsFrame cells n hi hst ht => exact .inr ⟨hi ▸ hn, hst, by rw [ht]⟩
  | noCommand hst haddr hmap htx => exact absurd htx hne

/-- What a step does to the overflow: it clears the encoder, or keeps the overflow, or is an encoding CHAR or MASK, which sets it
with at least four cells committed only. -/
theorem step_ovf {s t : State} (h : step s = .next t) :
    EncoderClear t ∨ t.ovf = s.ovf ∨
      (s.st = .ready ∧ (∃ i, nextCommand s = some i ∧ ((∃ cp, i = .char cp) ∨ ∃ m, i = .mask m)) ∧
        (s.ovf = true → t.ovf = true) ∧ (s.ovf = false → t.ovf = true → 4 ≤ t.ncells.toNat)) := by
  cases step_writes h with
  | reset hr rest ht => rw [ht]; exact .inl ⟨rfl, rfl, rfl, rfl, rfl⟩
  | command i ws ins hn hc =>
    cases hc with
    | responds code data u hu hle hcode ht =>
      rw [ht]
      cases hu with
      | unchanged => exact .inr (.inl rfl)
      | cleared => exact .inl ⟨rfl, rfl, rfl, rfl, rfl⟩
      | encoded hi hst hu => exact .inr (.inr ⟨hst, ⟨i, hn, hi⟩, hu.ovf_sticks, hu.full_of_ovf⟩)
    | startsBringUp a c hi hmap ht => rw [ht]; exact .inl ⟨rfl, rfl, rfl, rfl, rfl⟩
    | startsFrame cells n hi hst ht => rw [ht]; exact .inl ⟨rfl, rfl, rfl, rfl, rfl⟩
  | noCommand hst haddr hmap htx hovf => exact .inr (.inl hovf)

/-- Settles O54: by what a step does to the overflow. -/
theorem overflowIsSticky : Obligations.OverflowIsSticky := by
  intro s t h
  rcases step_ovf h with hclear | hkept | ⟨hst, hi, hsticks, hfull⟩
  · exact ⟨fun _ _ => hclear, fun _ ht => absurd (ht.symm.trans hclear.ovf) (by decide)⟩
  · rw [hkept]
    exact ⟨fun hs ht => absurd (hs.symm.trans ht) (by decide), fun hs ht => absurd (hs.symm.trans ht) (by decide)⟩
  · exact ⟨fun hs ht => absurd ((hsticks hs).symm.trans ht) (by decide), fun hs ht => ⟨hst, hfull hs ht, hi⟩⟩

/-- Settles O55: no update a step is made of writes the configuration, and a table read looks at nothing else but the map. -/
theorem theTableNeverChanges : Obligations.TheTableNeverChanges := by
  intro s t h
  have hb : t.build = s.build := by
    cases step_writes h with
    | reset hr rest ht => rw [ht]; rfl
    | command i ws ins hn hc =>
      cases hc with
      | responds code data u hu hle hcode ht => exact ht ▸ hu.encoderOnly.build
      | startsBringUp a c hi hmap ht => rw [ht]; rfl
      | startsFrame cells n hi hst ht => rw [ht]; rfl
    | noCommand hst haddr hmap htx hovf hbuild => exact hbuild
  exact ⟨hb, fun hm c => by rw [lutRead, lutRead, hm, hb]⟩

end Sys2Proof

/-! PROOFS of the family 20_memory: what an answered bus row leaves unchanged, and the words still to be accepted. -/

namespace Sys2Proof

open Machine

/-! ## The frame of a bus row -/

/-- A bus row answers a next state only where its transaction is the outstanding one. -/
theorem outstandingInstr_of_exec_busRow {i : Instr} {s t : State} (hc : hostCommand i = false) (h : exec i s = .next t) :
    outstandingInstr s = some i := by
  have hnext : exec i s ≠ .refused .notOutstanding := by simp [h]
  obtain ⟨hosc, hdisp, hbrt, hframe, -⟩ := busRowsNeedTheirTransaction s
  cases i
  case busOscOn =>
    have hst : s.st = .initOsc := not_imp_comm.mp hosc hnext
    simp [outstandingInstr, hst]
  case busDispOn =>
    have hst : s.st = .initDisp := not_imp_comm.mp hdisp hnext
    simp [outstandingInstr, hst]
  case busBrightness =>
    have hst : s.st = .initBrt := not_imp_comm.mp hbrt hnext
    simp [outstandingInstr, hst]
  case busFrame f =>
    obtain ⟨hst, htx⟩ : s.st = .frameTx ∧ s.txbuf = f := by simpa using mt (hframe f) hnext
    simp [outstandingInstr, hst, htx]
  all_goals cases hc

theorem exists_answer_of_answerNext {s : State} (ha : answerNext s = true) : ∃ r rest, s.inputs = .answer r :: rest := by
  unfold answerNext at ha
  split at ha
  · next r rest hi => exact ⟨r, rest, hi⟩
  · cases ha

/-- A bus row that answers a next state has waited and changed nothing, or its transaction has ended with the answer and the
rule of the busy state has run. -/
theorem exec_busRow_cases {i : Instr} {s t : State} (hc : hostCommand i = false) (h : exec i s = .next t) :
    t = s ∨ ∃ tx r rest, outstanding s = some tx ∧ encode i = .wire tx.bytes ∧
      t = answerRule s.st r (endTransaction r rest s) := by
  have ho := outstandingInstr_of_exec_busRow hc h
  cases ha : answerNext s with
  | false => exact .inl (Host.Outcome.next.inj (h.symm.trans (exec_outstanding_waits ho ha)))
  | true =>
    obtain ⟨r, rest, hi⟩ := exists_answer_of_answerNext ha
    obtain ⟨tx, -, htx, -⟩ := exists_outstanding_of_busy (busy_of_outstandingInstr ho)
    rw [exec_answered ho hi] at h
    split at h <;> cases h
    exact .inr ⟨tx, r, rest, htx, encode_outstandingInstr htx ho, rfl⟩

/-- An answered transaction writes `st` and the response register of the block, and around it the moves, the observed list and
the chip shadow. -/
theorem answerRule_endTransaction_frame {s t : State} {tx : Transaction} {c : Ctrl} {r : BusAnswer} {rest : List Input}
    (htx : outstanding s = some tx) (ht : t = answerRule c r (endTransaction r rest s)) :
    t = { s with
      st := t.st, resp := t.resp, respValid := t.respValid, inputs := t.inputs, busLog := t.busLog, chip := t.chip } := by
  rw [endTransaction_some r rest htx, answerRule_frame] at ht
  rw [ht]

/-- The answer to a bring-up write leaves the chip's RAM as it is, and that to a frame every byte from 8 on (R33, log entry 8). -/
theorem Machine.Chip.ram_answered_busRow {i : Instr} {bytes : List Byte} (hc : hostCommand i = false)
    (hcode : encode i = .wire bytes) (c : Chip) (r : BusAnswer) :
    ((∀ f, i ≠ .busFrame f) → (c.answered bytes r).ram = c.ram) ∧
      ∀ a, 8 ≤ a → (c.answered bytes r).ram.read a = c.ram.read a := by
  cases i
  case busOscOn =>
    obtain rfl : [cmdOsc] = bytes := Code.wire.inj hcode
    simp [Chip.answered_cmdOsc]
  case busDispOn =>
    obtain rfl : [cmdDisp] = bytes := Code.wire.inj hcode
    simp [Chip.answered_cmdDisp]
  case busBrightness =>
    obtain rfl : [cmdBrightness] = bytes := Code.wire.inj hcode
    simp [Chip.answered_cmdBrightness]
  case busFrame f =>
    obtain rfl : f.toList = bytes := Code.wire.inj hcode
    exact ⟨fun hne => absurd rfl (hne f), fun a ha => c.read_answered_frame_of_le f r ha⟩
  all_goals cases hc

/-- Settles O42: a bus row waits, or is an answered transaction, whose bytes say what of the RAM they leave. -/
theorem frameOfBusRows : Obligations.FrameOfBusRows := by
  intro i s t hrow h
  have hc : hostCommand i = false := by rcases hrow with rfl | rfl | rfl | ⟨f, rfl⟩ <;> rfl
  rcases exec_busRow_cases hc h with rfl | ⟨tx, r, rest, htx, hcode, ht⟩
  · exact ⟨rfl, fun _ => rfl, fun _ _ => rfl⟩
  · have hchip : t.chip = s.chip.answered tx.bytes r := ht ▸ (answerRule_endTransaction htx s.st r rest).2.2
    refine ⟨answerRule_endTransaction_frame htx ht, ?_⟩
    rw [hchip]
    exact Chip.ram_answered_busRow hc hcode s.chip r

/-! ## The words still to be accepted -/

/-- The words still to be accepted are those that wait and those offered in the moves to come, and nothing else of the state. -/
theorem pendingWords_congr {s t : State} (hw : t.waiting = s.waiting) (hi : t.inputs = s.inputs) :
    pendingWords t = pendingWords s := by
  rw [pendingWords, pendingWords, hw, hi]

/-- A step takes the first word to be accepted, in the acceptance of its instruction, or takes none (R42, R100). -/
theorem step_pendingWords {s t : State} (h : step s = .next t) :
    (nextCommand s = none ∧ pendingWords t = pendingWords s) ∨
      ∃ w, nextCommand s = some (decodeCommand s.build.hasCustomMap w) ∧ pendingWords s = w :: pendingWords t := by
  cases step_cases h with
  | reset rest hi hr hn ht => exact .inl ⟨hn, by simp [ht, pendingWords, hi]⟩
  | command w u hp hr hn hw hu he =>
    obtain ⟨-, hwait, hin, -⟩ := exec_hostCommand_frame (decodeCommand_hostCommand _ _) he
    exact .inr ⟨w, hn, by rw [hw, pendingWords_congr hwait hin]⟩
  | surroundings hr hn hw ha ht => exact .inl ⟨hn, hw⟩
  | take rest hi hr hn hv hc ht => exact .inl ⟨hn, by simp [ht, pendingWords, hi]⟩
  | answer r rest i hi hr hn hb ho hf ht =>
    rw [answerRule_frame] at ht
    exact .inl ⟨hn, by simp [ht, pendingWords, hi]⟩

/-- Settles O58: by what a step does to the words to be accepted. -/
theorem commandsAreAcceptedInOrder : Obligations.CommandsAreAcceptedInOrder := by
  intro s t h
  rcases step_pendingWords h with ⟨hn, hpend⟩ | ⟨w, hn, hpend⟩ <;> rw [hn]
  · exact ⟨fun _ => hpend, nofun⟩
  · exact ⟨nofun, fun i hi => ⟨w, hpend, (Option.some.inj hi).symm⟩⟩

end Sys2Proof

/-! PROOFS of the family 30_encoding: the decoder read opcode by opcode, and back from the encoder. -/

namespace Sys2Proof

open Machine

/-! ## The decoder, opcode by opcode (R49, R103) -/

theorem decodeCommand_nop {h : Bool} {w : Word} (hop : opField w = 0x0) : decodeCommand h w = .nop := by
  simp [decodeCommand, hop]

theorem decodeCommand_init {h : Bool} {w : Word} (hop : opField w = 0x1) :
    decodeCommand h w =
      if customField w && !h then .reserved else .init (addrField w) (customField w) := by
  simp [decodeCommand, hop]

theorem decodeCommand_char {h : Bool} {w : Word} (hop : opField w = 0x2) : decodeCommand h w = .char (cpField w) := by
  simp [decodeCommand, hop]

theorem decodeCommand_mask {h : Bool} {w : Word} (hop : opField w = 0x3) : decodeCommand h w = .mask (maskField w) := by
  simp [decodeCommand, hop]

theorem decodeCommand_showText {h : Bool} {w : Word} (hop : opField w = 0x4) : decodeCommand h w = .showText := by
  simp [decodeCommand, hop]

theorem decodeCommand_lookup {h : Bool} {w : Word} (hop : opField w = 0x5) :
    decodeCommand h w = .lookup (cpField w) := by
  simp [decodeCommand, hop]

theorem decodeCommand_clear {h : Bool} {w : Word} (hop : opField w = 0x6) : decodeCommand h w = .clear := by
  simp [decodeCommand, hop]

theorem decodeCommand_status {h : Bool} {w : Word} (hop : opField w = 0x7) : decodeCommand h w = .status := by
  simp [decodeCommand, hop]

theorem decodeCommand_reserved {h : Bool} {w : Word} (hop : 0x8 ≤ opField w) : decodeCommand h w = .reserved := by
  replace hop : 8 ≤ (opField w).toNat := hop
  unfold decodeCommand
  split
  case h_9 => rfl
  all_goals omega

/-- The opcodes of R49, and the reserved ones (R52). -/
theorem opcode_cases (op : BitVec 4) :
    op = 0x0 ∨ op = 0x1 ∨ op = 0x2 ∨ op = 0x3 ∨ op = 0x4 ∨ op = 0x5 ∨ op = 0x6 ∨ op = 0x7 ∨ 0x8 ≤ op := by
  revert op
  decide

/-! ## Decoding what the encoder writes -/

theorem opField_formatF0 (op : BitVec 4) : opField (formatF0 op) = op := opField_append op _

theorem opField_formatFI (op : BitVec 4) (custom : Bool) (a : DevAddr) : opField (formatFI op custom a) = op := by
  rw [formatFI, BitVec.append_assoc, BitVec.append_assoc]
  exact opField_append op _

theorem opField_formatFC (op : BitVec 4) (cp : CodePoint) : opField (formatFC op cp) = op := by
  rw [formatFC, BitVec.append_assoc]
  exact opField_append op _

theorem opField_formatFM (op : BitVec 4) (m : Mask) : opField (formatFM op m) = op := by
  rw [formatFM, BitVec.append_assoc]
  exact opField_append op _

/-- An INIT that the build has decodes to itself: R103's check lets it through. -/
theorem decodeCommand_formatFI {h custom : Bool} (a : DevAddr) (hwf : (Instr.init a custom).wf h = true) :
    decodeCommand h (formatFI 0x1 custom a) = .init a custom := by
  have hlegal : (custom && !h) = false := by simpa [Instr.wf, Decidable.imp_iff_not_or] using hwf
  rw [decodeCommand_init (opField_formatFI ..), customField_formatFI, addrField_formatFI, hlegal]
  rfl

/-- A frame that starts with the register-select byte decodes to itself (R57). -/
theorem decodeWire_toList {f : Frame} (hwf : f.wf = true) : decodeWire f.toList = .ok (.busFrame f) :=
  if_pos (by simpa [Frame.wf] using hwf)

theorem decode_command {h : Bool} {w : Word} {i : Instr} (hd : decodeCommand h w = i) : decode h (.command w) = .ok i :=
  congrArg Except.ok hd

/-- Settles O1: per format, the opcode and the operands read back from the word are those it was put together from. -/
theorem decodingAnEncodedInstructionGivesItBack : Obligations.DecodingAnEncodedInstructionGivesItBack := by
  intro h i hwf
  cases i with
  | nop => exact decode_command (decodeCommand_nop (opField_formatF0 _))
  | init a custom => exact decode_command (decodeCommand_formatFI a hwf)
  | char cp => exact decode_command (by rw [decodeCommand_char (opField_formatFC ..), cpField_formatFC])
  | mask m => exact decode_command (by rw [decodeCommand_mask (opField_formatFM ..), maskField_formatFM])
  | showText => exact decode_command (decodeCommand_showText (opField_formatF0 _))
  | lookup cp => exact decode_command (by rw [decodeCommand_lookup (opField_formatFC ..), cpField_formatFC])
  | clear => exact decode_command (decodeCommand_clear (opField_formatF0 _))
  | status => exact decode_command (decodeCommand_status (opField_formatF0 _))
  | reserved => exact decode_command (decodeCommand_reserved (by decide))
  | busOscOn | busDispOn | busBrightness => rfl
  | busFrame f => exact decodeWire_toList hwf

/-- Settles O2: each word and byte string is run through the decoder. -/
theorem specWordsDecodeToTheirInstructions : Obligations.SpecWordsDecodeToTheirInstructions :=
  ⟨rfl, rfl, rfl, rfl, rfl, rfl, rfl, rfl, rfl, rfl, rfl, rfl, rfl, rfl, rfl⟩

/-! ## The byte strings that decode -/

/-- Settles O5: in each branch of the wire decoder that accepts, the bytes are one pattern of R56. -/
theorem onlyTheFourWirePatternsDecode : Obligations.OnlyTheFourWirePatternsDecode := by
  intro bytes i h
  unfold decodeWire at h
  split at h
  · next b =>
    split at h
    · next hb => subst hb; cases h; exact ⟨rfl, .inl rfl⟩
    split at h
    · next hb => subst hb; cases h; exact ⟨rfl, .inr (.inl rfl)⟩
    split at h
    · next hb => subst hb; cases h; exact ⟨rfl, .inr (.inr (.inl rfl))⟩
    · cases h
  · next b0 b1 b2 b3 b4 b5 b6 b7 b8 =>
    split at h
    · next hb => subst hb; cases h; exact ⟨rfl, .inr (.inr (.inr ⟨rfl, rfl⟩))⟩
    · cases h
  · cases h

/-! ## The reserved words -/

theorem exec_reserved (s : State) : exec .reserved s = .next (s.responding 0x40000000) := rfl

/-- Settles O31: both kinds of word decode to RESERVED. -/
theorem reservedWordsAreIllegal : Obligations.ReservedWordsAreIllegal := by
  refine ⟨fun s w hw => ?_, exec_reserved⟩
  have hdec : decodeCommand s.build.hasCustomMap w = .reserved := by
    rcases hw with hop | ⟨hop, hcustom, hmap⟩
    · exact decodeCommand_reserved hop
    · exact (decodeCommand_init hop).trans (if_pos (by simp [customField, hcustom, hmap]))
  rw [hdec, exec_reserved]

/-! ## The ignored bits (R51) -/

/-- A field that a mask leaves out is not touched by flipping bits under that mask. -/
theorem extractLsb'_xor_and {a n : Nat} (w x : Word) {m : Word} (hm : m.extractLsb' a n = 0) :
    (w ^^^ (x &&& m)).extractLsb' a n = w.extractLsb' a n := by
  rw [BitVec.extractLsb'_xor, BitVec.extractLsb'_and, hm]
  simp

/-- `w` with those of its ignored bits flipped that `x` holds. -/
def flipIgnored (x w : Word) : Word := w ^^^ (x &&& ignoredBits w)

/-- No format ignores the opcode. -/
theorem opField_flipIgnored (x w : Word) : opField (flipIgnored x w) = opField w := by
  refine extractLsb'_xor_and w x ?_
  unfold ignoredBits
  split <;> rfl

/-- The bits of INIT's address and map selection are not ignored. -/
theorem initFields_flipIgnored (x : Word) {w : Word} (hop : opField w = 0x1) :
    addrField (flipIgnored x w) = addrField w ∧ customField (flipIgnored x w) = customField w := by
  have hbits : ignoredBits w = 0x0FFFFF00 := by simp [ignoredBits, hop]
  rw [flipIgnored, hbits]
  exact ⟨extractLsb'_xor_and w x rfl, by simp [customField]⟩

/-- The bits of a code point are not ignored. -/
theorem cpField_flipIgnored (x : Word) {w : Word} (hop : opField w = 0x2 ∨ opField w = 0x5) :
    cpField (flipIgnored x w) = cpField w := by
  have hbits : ignoredBits w = 0x0FE00000 := by rcases hop with hop | hop <;> simp [ignoredBits, hop]
  rw [flipIgnored, hbits]
  exact extractLsb'_xor_and w x rfl

/-- The bits of a raw mask are not ignored. -/
theorem maskField_flipIgnored (x : Word) {w : Word} (hop : opField w = 0x3) :
    maskField (flipIgnored x w) = maskField w := by
  have hbits : ignoredBits w = 0x0FFF0000 := by simp [ignoredBits, hop]
  rw [flipIgnored, hbits]
  exact extractLsb'_xor_and w x rfl

theorem decodeCommand_flipIgnored (h : Bool) (x w : Word) : decodeCommand h (flipIgnored x w) = decodeCommand h w := by
  have hflip := opField_flipIgnored x w
  rcases opcode_cases (opField w) with hop | hop | hop | hop | hop | hop | hop | hop | hop
  · rw [decodeCommand_nop hop, decodeCommand_nop (hflip.trans hop)]
  · obtain ⟨haddr, hcustom⟩ := initFields_flipIgnored x hop
    rw [decodeCommand_init hop, decodeCommand_init (hflip.trans hop), haddr, hcustom]
  · rw [decodeCommand_char hop, decodeCommand_char (hflip.trans hop), cpField_flipIgnored x (.inl hop)]
  · rw [decodeCommand_mask hop, decodeCommand_mask (hflip.trans hop), maskField_flipIgnored x hop]
  · rw [decodeCommand_showText hop, decodeCommand_showText (hflip.trans hop)]
  · rw [decodeCommand_lookup hop, decodeCommand_lookup (hflip.trans hop), cpField_flipIgnored x (.inr hop)]
  · rw [decodeCommand_clear hop, decodeCommand_clear (hflip.trans hop)]
  · rw [decodeCommand_status hop, decodeCommand_status (hflip.trans hop)]
  · rw [decodeCommand_reserved hop, decodeCommand_reserved (hflip ▸ hop)]

/-- The step that accepts a word that waits first looks at what the word decodes to. -/
theorem step_waiting {s : State} (hp : s.portReady = true) (hr : resetNext s = false) (w : Word) (ws : List Word) :
    step { s with waiting := w :: ws } = exec (decodeCommand s.build.hasCustomMap w) { s with waiting := ws } :=
  (stepRunsTheAcceptedCommand { s with waiting := w :: ws } hp hr).1 w ws rfl

/-- Settles O3: no field a command names holds an ignored bit, and the accepting step looks at the word through the decoder. -/
theorem ignoredBitsDoNotMatter : Obligations.IgnoredBitsDoNotMatter := by
  refine ⟨fun h w x => decodeCommand_flipIgnored h x w, fun s w x hp hr => ?_, fun h => rfl⟩
  rw [step_waiting hp hr, step_waiting hp hr]
  exact congrArg (exec · s) (decodeCommand_flipIgnored _ x w)

end Sys2Proof

/-! PROOFS of the family 30_encoding: CHAR, MASK and SHOW against the source's `encode`. -/

namespace Sys2Proof

open Machine

/-! ## What the encoder holds -/

/-- The encoder has been given the cells `l` to commit: the first four are committed, and the overflow says whether there were
more (R17, R19, R87). -/
structure Holding (l : List Mask) (s : State) : Prop where
  cells : committed s = l.take 4
  ncells : s.ncells.toNat = min l.length 4
  ovf : s.ovf = true ↔ 4 < l.length

/-- The mask of the pending character, if there is one (R18). -/
def pendingMask (s : State) : List Mask := if s.pend then [s.pmask] else []

theorem encoderContents_eq (s : State) : encoderContents s = committed s ++ pendingMask s := rfl

theorem Holding.of_clear {s : State} (h : EncoderClear s) : Holding [] s where
  cells := by simp [committed, h.ncells]
  ncells := by simp [h.ncells]
  ovf := by simp [h.ovf]

/-- What the encoder holds stands in its cells, their number and the overflow. -/
theorem Holding.congr {l : List Mask} {s t : State} (h : Holding l s) (hc : t.cells = s.cells) (hn : t.ncells = s.ncells)
    (ho : t.ovf = s.ovf) : Holding l t where
  cells := by rw [committed, hc, hn]; exact h.cells
  ncells := by rw [hn]; exact h.ncells
  ovf := by rw [ho]; exact h.ovf

theorem Machine.Cells.toList_set (c : Cells) (k : Nat) (m : Mask) : (c.set k m).toList = c.toList.set k m := by
  match k with
  | 0 | 1 | 2 | 3 => rfl
  | k + 4 => simp [Cells.set, Cells.toList]

/-- A cell set next after the first `k` extends them by one. -/
theorem Machine.Cells.take_toList_set (c : Cells) {k : Nat} (m : Mask) (hk : k < 4) :
    (c.set k m).toList.take (k + 1) = c.toList.take k ++ [m] := by
  have hlen : k < c.toList.length := hk
  rw [Cells.toList_set, List.take_add_one, List.take_set_of_le le_rfl, List.getElem?_set_self hlen]
  rfl

/-- A commit gives the encoder one cell more (R87). -/
theorem Holding.commit {l : List Mask} {s : State} (h : Holding l s) (m : Mask) : Holding (l ++ [m]) (commit m s) := by
  obtain ⟨hcells, hn, hovf⟩ := h
  rcases commit_cases m s with ⟨hlt, e⟩ | ⟨hfull, e⟩ <;> rw [e]
  · have hl : l.length < 4 := by omega
    have hsucc : (s.ncells + 1).toNat = s.ncells.toNat + 1 := by rw [BitVec.toNat_add]; simp; omega
    refine ⟨?_, ?_, ?_⟩
    · rw [committed, hsucc, Cells.take_toList_set _ _ hlt, ← committed, hcells, List.take_of_length_le (by omega),
        List.take_of_length_le (by simp; omega)]
    · simp only [hsucc, hn, List.length_append, List.length_singleton]; omega
    · simp only [hovf, List.length_append, List.length_singleton]; omega
  · have hl : 4 ≤ l.length := by omega
    refine ⟨?_, ?_, ?_⟩
    · rw [List.take_append_of_le_length hl]; exact hcells
    · simp only [hn, List.length_append, List.length_singleton]; omega
    · simp only [List.length_append, List.length_singleton, true_iff]; omega

/-- The flush gives the encoder the pending mask (R89, R95). -/
theorem Holding.flushPending {l : List Mask} {s : State} (h : Holding l s) :
    Holding (l ++ pendingMask s) (flushPending s) := by
  rcases flushPending_cases s with ⟨hp, e⟩ | ⟨hp, e⟩ <;> rw [e]
  · rw [pendingMask, if_pos hp]
    exact (h.commit s.pmask).congr rfl rfl rfl
  · simpa [pendingMask, hp] using h

/-- Without overflow, the committed cells are all that the encoder was given. -/
theorem Holding.committed_of_not_ovf {l : List Mask} {s : State} (h : Holding l s) (ho : s.ovf = false) :
    committed s = l := by
  have hl : ¬4 < l.length := fun hlt => absurd ((h.ovf.mpr hlt).symm.trans ho) (by decide)
  rw [h.cells, List.take_of_length_le (by omega)]

/-- With overflow, all four cells are committed. -/
theorem Holding.cells_of_ovf {l : List Mask} {s : State} (h : Holding l s) (ho : s.ovf = true) :
    s.cells.toList = l.take 4 := by
  have hl := h.ovf.mp ho
  have hn : s.ncells.toNat = 4 := by rw [h.ncells]; omega
  rw [← h.cells, committed, hn]
  rfl

/-! ## The meanings, one after the other -/

theorem feed_cons {i : Instr} {s t : State} (is : List Instr) (h : exec i s = .next t) : feed (i :: is) s = feed is t := by
  simp [feed, h]

theorem feed_append {is : List Instr} {s t : State} (js : List Instr) (h : feed is s = .next t) :
    feed (is ++ js) s = feed js t := by
  induction is generalizing s with
  | nil => cases h; rfl
  | cons i is ih =>
    rw [feed] at h
    split at h
    · next u hu => rw [List.cons_append, feed_cons _ hu]; exact ih h
    all_goals cases h

/-- A text or a list of masks, and the SHOW that ends it (R61). -/
theorem feed_append_showText {is : List Instr} {s t u : State} (h : feed is s = .next t) (hu : exec .showText t = .next u) :
    feed (is ++ [.showText]) s = .next u := by
  rw [feed_append _ h, feed_cons _ hu]
  rfl

theorem EncoderOnly.trans {s t u : State} (h : EncoderOnly s t) (h' : EncoderOnly t u) : EncoderOnly s u :=
  ⟨h'.st.trans h.st, h'.addr.trans h.addr, h'.mapSel.trans h.mapSel, h'.txbuf.trans h.txbuf, h'.build.trans h.build⟩

theorem EncoderOnly.lutRead_eq {s t : State} (h : EncoderOnly s t) : lutRead t = lutRead s := by
  funext c
  rw [lutRead, lutRead, h.mapSel, h.build]

theorem encoderOnly_commit (m : Mask) (s : State) : EncoderOnly s (commit m s) := (Encodes.refl.commit m).encoderOnly

/-! ## MASK -/

/-- MASK in READY, with nothing pending, gives the encoder its mask (R89). -/
theorem exec_mask_holding {l : List Mask} {s : State} (m : Mask) (hst : s.st = .ready) (hp : s.pend = false)
    (h : Holding l s) :
    ∃ t, exec (.mask m) s = .next t ∧ EncoderOnly s t ∧ t.pend = false ∧ Holding (l ++ [m]) t := by
  have hflush : flushPending s = s := by simp [Machine.flushPending, hp]
  have hexec : exec (.mask m) s = .next (respondOk 0 (commit m s)) := by simp [exec, execMask, hst, hflush]
  exact ⟨_, hexec, { encoderOnly_commit m s with }, (commit_pend m s).trans hp, (h.commit m).congr rfl rfl rfl⟩

/-- MASK for each mask of a list gives the encoder the list. -/
theorem feed_masks {l : List Mask} {s : State} (masks : List Mask) (hst : s.st = .ready) (hp : s.pend = false)
    (h : Holding l s) :
    ∃ t, feed (masks.map .mask) s = .next t ∧ EncoderOnly s t ∧ t.pend = false ∧ Holding (l ++ masks) t := by
  induction masks generalizing l s with
  | nil => exact ⟨s, rfl, .refl s, hp, by simpa using h⟩
  | cons m masks ih =>
    obtain ⟨u, hu, heu, hpu, hhu⟩ := exec_mask_holding m hst hp h
    obtain ⟨t, ht, het, hpt, hht⟩ := ih (heu.st.trans hst) hpu hhu
    exact ⟨t, (feed_cons _ hu).trans ht, heu.trans het, hpt, by simpa using hht⟩

/-! ## CHAR -/

/-- What the loop of `encode` builds from a character's mask and the text after the character: a period that comes next is the
character's own (R82). -/
def pendingCells (T : CodePoint → Mask) (m : Mask) (text : List CodePoint) : List Mask :=
  match text with
  | [] => [m]
  | d :: rest => if d = period then decorate m :: encodeCells T rest else m :: encodeCells T (d :: rest)

theorem encodeCells_cons (T : CodePoint → Mask) (c : CodePoint) (text : List CodePoint) :
    encodeCells T (c :: text) = pendingCells T (T c) text := by
  cases text <;> rfl

/-- The cells still to come of a text in a state: those of the pending character, if there is one, and of the text. -/
def cellsToCome (T : CodePoint → Mask) (s : State) (text : List CodePoint) : List Mask :=
  if s.pend then pendingCells T s.pmask text else encodeCells T text

theorem cellsToCome_of_pend {s : State} (hp : s.pend = true) (T : CodePoint → Mask) (text : List CodePoint) :
    cellsToCome T s text = pendingCells T s.pmask text := if_pos hp

theorem cellsToCome_of_not_pend {s : State} (hp : s.pend = false) (T : CodePoint → Mask) (text : List CodePoint) :
    cellsToCome T s text = encodeCells T text := if_neg (by simp [hp])

theorem cellsToCome_nil (T : CodePoint → Mask) (s : State) : cellsToCome T s [] = pendingMask s := rfl

/-- CHAR in READY moves cells from those to come to those the encoder has been given (R88): a period decorates the pending mask,
another character commits it, and either way what is to come of the text after it is the rest. -/
theorem exec_char_holding {l : List Mask} {s : State} (cp : CodePoint) (hst : s.st = .ready) (h : Holding l s) :
    ∃ l' t, exec (.char cp) s = .next t ∧ EncoderOnly s t ∧ Holding l' t ∧
      ∀ rest, l' ++ cellsToCome (lutRead s) t rest = l ++ cellsToCome (lutRead s) s (cp :: rest) := by
  cases hp : s.pend with
  | false =>
    have hexec : exec (.char cp) s = .next (respondOk 0 { s with pmask := lutRead s cp, pend := true }) := by
      simp [exec, execChar, hst, hp]
    refine ⟨l, _, hexec, ⟨rfl, rfl, rfl, rfl, rfl⟩, h.congr rfl rfl rfl, fun rest => ?_⟩
    rw [cellsToCome_of_not_pend hp, encodeCells_cons]
    rfl
  | true =>
    by_cases hcp : cp = period
    · have hexec : exec (.char cp) s =
          .next (respondOk 0 { commit (decorate s.pmask) s with pend := false, pmask := 0 }) := by
        simp [exec, execChar, hst, hp, hcp]
      have heo := encoderOnly_commit (decorate s.pmask) s
      refine ⟨_, _, hexec, { heo with }, (h.commit (decorate s.pmask)).congr rfl rfl rfl, fun rest => ?_⟩
      rw [cellsToCome_of_not_pend rfl, cellsToCome_of_pend hp, pendingCells, if_pos hcp, List.append_assoc]
      rfl
    · have heo := encoderOnly_commit s.pmask s
      have hexec : exec (.char cp) s =
          .next (respondOk 0 { commit s.pmask s with pmask := lutRead s cp, pend := true }) := by
        simp [exec, execChar, hst, hp, hcp, heo.lutRead_eq]
      refine ⟨_, _, hexec, { heo with }, (h.commit s.pmask).congr rfl rfl rfl, fun rest => ?_⟩
      rw [cellsToCome_of_pend rfl, cellsToCome_of_pend hp, pendingCells, if_neg hcp, encodeCells_cons, List.append_assoc]
      rfl

/-- CHAR for each character of a text gives the encoder its cells, the last one's perhaps still pending. -/
theorem feed_chars {l : List Mask} {s : State} (text : List CodePoint) (hst : s.st = .ready) (h : Holding l s) :
    ∃ l' t, feed (text.map .char) s = .next t ∧ EncoderOnly s t ∧ Holding l' t ∧
      l' ++ pendingMask t = l ++ cellsToCome (lutRead s) s text := by
  induction text generalizing l s with
  | nil => exact ⟨l, s, rfl, .refl s, h, by rw [cellsToCome_nil]⟩
  | cons cp text ih =>
    obtain ⟨l₁, u, hu, heu, hhu, hcells⟩ := exec_char_holding cp hst h
    obtain ⟨l₂, t, ht, het, hht, hrest⟩ := ih (heu.st.trans hst) hhu
    rw [heu.lutRead_eq] at hrest
    exact ⟨l₂, t, (feed_cons _ hu).trans ht, heu.trans het, hht, hrest.trans (hcells text)⟩

/-! ## SHOW -/

/-- Packing the committed cells is packing them as a list (R93). -/
theorem packList_take (c : Cells) {n : Nat} (hn : n ≤ 4) : packList (c.toList.take n) = pack c n := by
  match n, hn with
  | 0, _ | 1, _ | 2, _ | 3, _ | 4, _ => rfl

/-- SHOW in READY, with more than four cells given or pending, answers OVERLONG_TEXT (R95). -/
theorem exec_showText_overlong {l : List Mask} {s : State} (hst : s.st = .ready) (h : Holding l s)
    (hl : 4 < (l ++ pendingMask s).length) :
    exec .showText s = .next ((encClear s).responding 0x20000000) := by
  have hovf : (flushPending s).ovf = true := h.flushPending.ovf.mpr hl
  have hexec : exec .showText s = .next (raise .overlongText (encClear s)) := by simp [exec, execShowText, hst, hovf]
  exact hexec

/-- SHOW in READY, with at most four cells given or pending, clears the encoder and starts the write of their frame (R95). -/
theorem exec_showText_frame {l : List Mask} {s : State} (hst : s.st = .ready) (h : Holding l s)
    (hl : (l ++ pendingMask s).length ≤ 4) :
    exec .showText s = .next { encClear s with txbuf := packList (l ++ pendingMask s), st := .frameTx } := by
  have hflush := h.flushPending
  have hovf : (flushPending s).ovf = false :=
    Bool.eq_false_iff.mpr fun ho => Nat.not_lt.mpr hl (hflush.ovf.mp ho)
  have hn : (flushPending s).ncells.toNat ≤ 4 := by rw [hflush.ncells]; omega
  have hpack : pack (flushPending s).cells (flushPending s).ncells.toNat = packList (l ++ pendingMask s) := by
    rw [← packList_take _ hn, ← hflush.committed_of_not_ovf hovf]
    rfl
  simp [exec, execShowText, hst, hovf, hpack]

/-- SHOW in READY clears the encoder, and answers OVERLONG_TEXT or sends the frame of the cells given and pending (R95). -/
theorem exec_showText_holding {l : List Mask} {s : State} (hst : s.st = .ready) (h : Holding l s) :
    ∃ u, exec .showText s = .next u ∧ EncoderClear u ∧
      (4 < (l ++ pendingMask s).length → u = (encClear s).responding 0x20000000 ∧ outstanding u = none) ∧
      ((l ++ pendingMask s).length ≤ 4 →
        u.st = .frameTx ∧ outstanding u = some ⟨.raw, s.addr, (packList (l ++ pendingMask s)).toList⟩) := by
  by_cases hl : 4 < (l ++ pendingMask s).length
  · have hidle : ((encClear s).responding 0x20000000).st.idle = true := (Ctrl.idle_iff _).mpr (.inr (.inl hst))
    exact ⟨_, exec_showText_overlong hst h hl, ⟨rfl, rfl, rfl, rfl, rfl⟩, fun _ => ⟨rfl, outstanding_of_idle hidle⟩,
      fun hle => absurd hl (Nat.not_lt.mpr hle)⟩
  · exact ⟨_, exec_showText_frame hst h (Nat.not_lt.mp hl), ⟨rfl, rfl, rfl, rfl, rfl⟩, fun hlt => absurd hlt hl,
      fun _ => ⟨rfl, rfl⟩⟩

/-! ## The streams as wholes -/

theorem encodeText_eq_none {T : CodePoint → Mask} {text : List CodePoint} (h : encodeText T text = none) :
    4 < (encodeCells T text).length := by
  simpa [encodeText] using h

theorem encodeText_eq_some {T : CodePoint → Mask} {text : List CodePoint} {l : List Mask}
    (h : encodeText T text = some l) : (encodeCells T text).length ≤ 4 ∧ encodeCells T text = l := by
  simpa [encodeText] using h

/-- Settles O45: CHAR and MASK give the encoder, one by one, the cells that `encode` builds or the list holds, and SHOW looks at
the cells given. -/
theorem charStreamAgreesWithEncode : Obligations.CharStreamAgreesWithEncode := by
  constructor
  · intro text s hst hclear
    obtain ⟨l, t, ht, heo, hhold, hcells⟩ := feed_chars text hst (.of_clear hclear)
    have hstt : t.st = .ready := heo.st.trans hst
    replace hcells : l ++ pendingMask t = encodeCells (lutRead s) text := by
      rw [hcells, cellsToCome_of_not_pend hclear.pend, List.nil_append]
    obtain ⟨u, hu, -, hover, hframe⟩ := exec_showText_holding hstt hhold
    rw [hcells] at hover hframe
    refine ⟨t, ht, hstt, fun ho => ?_, fun ho => ?_, u, hu, feed_append_showText ht hu, fun hnone => ?_, fun l' hsome => ?_⟩
    · rw [encoderContents_eq, hhold.committed_of_not_ovf ho, hcells]
    · have hl : 4 < l.length := hhold.ovf.mp ho
      rw [hhold.cells_of_ovf ho, ← hcells, List.take_append_of_le_length hl.le, List.length_append]
      exact ⟨by omega, rfl⟩
    · exact (hover (encodeText_eq_none hnone)).1
    · obtain ⟨hle, rfl⟩ := encodeText_eq_some hsome
      exact heo.addr ▸ hframe hle
  · intro masks s hst hclear
    obtain ⟨t, ht, heo, hp, hhold⟩ := feed_masks masks hst hclear.pend (.of_clear hclear)
    have hstt : t.st = .ready := heo.st.trans hst
    rw [List.nil_append] at hhold
    obtain ⟨u, hu, hclearu, hover, hframe⟩ := exec_showText_holding hstt hhold
    have hall : masks ++ pendingMask t = masks := by simp [pendingMask, hp]
    rw [hall] at hover hframe
    exact ⟨t, ht, hstt, hp, hhold.cells, hhold.ovf, u, feed_append_showText ht hu, hclearu, heo.addr ▸ hframe, hover⟩

end Sys2Proof

/-! PROOFS of the family 40_lut: what the two maps read, the literals they are built from, and LOOKUP. -/

namespace Sys2Proof

open Machine

/-! ## The two maps (R62, R64, R66) -/

theorem defaultMap_of_unmapped (b : Build) {c : CodePoint} (h : c < 0x20 ∨ 0x7E < c ∨ c = 0x2E) : defaultMap b c = 0 :=
  if_pos h

theorem defaultMap_of_mapped (b : Build) {c : CodePoint} (hlow : 0x20 ≤ c) (hhigh : c ≤ 0x7E) (hp : c ≠ 0x2E) :
    defaultMap b c = b.defaultTable.getD (c.toNat - 0x20) 0 := by
  refine if_neg ?_
  rintro (h | h | h)
  · exact BitVec.not_lt.mpr hlow h
  · exact BitVec.not_lt.mpr hhigh h
  · exact hp h

theorem customMap_of_none {b : Build} (h : b.hasCustomMap = false) (c : CodePoint) : customMap b c = 0 := by
  have hnone : b.customMap = none := by simpa [Build.hasCustomMap] using h
  rw [customMap, hnone]

theorem customMap_of_some {b : Build} {entries : List (CodePoint × Mask)} (h : b.customMap = some entries)
    (c : CodePoint) : customMap b c = if 0x10FFFF < c then 0 else (entries.lookup c).getD 0 := by
  rw [customMap, h]
  rfl

theorem lookup_eq_none_of_forall_ne {entries : List (CodePoint × Mask)} {c : CodePoint} (h : ∀ e ∈ entries, e.1 ≠ c) :
    entries.lookup c = none :=
  List.lookup_eq_none_iff.mpr fun e he => bne_iff_ne.mpr (h e he).symm

/-- An entry that is the only one of its key is what the list gives the key (log entry 17). -/
theorem lookup_eq_some_of_unique {entries : List (CodePoint × Mask)} {c : CodePoint} {m : Mask} (hmem : (c, m) ∈ entries)
    (huniq : ∀ m', (c, m') ∈ entries → m' = m) : entries.lookup c = some m := by
  cases hl : entries.lookup c with
  | none => exact absurd rfl (bne_iff_ne.mp (List.lookup_eq_none_iff.mp hl (c, m) hmem))
  | some m' =>
    obtain ⟨l₁, l₂, rfl, -⟩ := List.lookup_eq_some_iff.mp hl
    rw [huniq m' (by simp)]

theorem lutRead_default {s : State} (h : s.mapSel = false) (c : CodePoint) : lutRead s c = defaultMap s.build c := by
  simp [lutRead, h]

theorem lutRead_custom {s : State} (h : s.mapSel = true) (c : CodePoint) : lutRead s c = customMap s.build c := by
  simp [lutRead, h]

/-- Settles O18: the bound map's reading, case by case. -/
theorem unmappedCharactersReadZero : Obligations.UnmappedCharactersReadZero := by
  intro s c
  refine ⟨fun hs hc => ?_, fun hs hlow hhigh hp => ?_, fun hs hmap => ?_, fun entries hs hmap => ?_⟩
  · rw [lutRead_default hs, defaultMap_of_unmapped _ hc]
  · rw [lutRead_default hs, defaultMap_of_mapped _ hlow hhigh hp]
  · rw [lutRead_custom hs, customMap_of_none hmap]
  · rw [lutRead_custom hs, customMap_of_some hmap]
    refine ⟨fun hne => ?_, fun hlast => if_pos hlast, fun m hlast hmem huniq => ?_⟩
    · rw [lookup_eq_none_of_forall_ne hne, Option.getD_none, ite_self]
    · rw [if_neg (BitVec.not_lt.mpr hlast), lookup_eq_some_of_unique hmem huniq, Option.getD_some]

/-! ## Literals (R68, R70) -/

/-- A string LitDecode accepts. -/
def IsLiteral (l : List Char) : Prop := l.length = 16 ∧ ∀ c ∈ l, c = '0' ∨ c = '1'

theorem litDecode_of_isLiteral {l : List Char} (h : IsLiteral l) : litDecode l = .ok (BitVec.ofNat 16 (litValue l)) := by
  obtain ⟨hlen, hchar⟩ := h
  have hany : l.any (fun c => c != '0' && c != '1') = false := by
    rw [List.any_eq_false]
    intro c hc
    rcases hchar c hc with rfl | rfl <;> decide
  rw [litDecode, if_neg (not_not_intro hlen), hany]
  rfl

theorem litDecode_of_not_isLiteral {l : List Char} (h : ¬IsLiteral l) : litDecode l = .error .invalidCharacterLiteral := by
  unfold litDecode
  split
  · rfl
  next hlen =>
  split
  · rfl
  next hany =>
  refine absurd ⟨not_not.mp hlen, fun c hc => ?_⟩ h
  have hc' := List.any_eq_false.mp (Bool.eq_false_iff.mpr hany) c hc
  by_cases h0 : c = '0'
  · exact .inl h0
  · exact .inr (by simpa [h0] using hc')

theorem litDecode_eq_ok_iff {l : List Char} {v : Mask} :
    litDecode l = .ok v ↔ IsLiteral l ∧ v = BitVec.ofNat 16 (litValue l) := by
  by_cases h : IsLiteral l
  · simp [litDecode_of_isLiteral h, h, eq_comm]
  · simp [litDecode_of_not_isLiteral h, h]

theorem litValue_lt (l : List Char) : litValue l < 2 ^ l.length := by
  induction l with
  | nil => decide
  | cons c cs ih =>
    rw [litValue, List.length_cons, Nat.pow_succ]
    split <;> omega

/-- The bits of a string's value are its characters, the first the most significant (R59). -/
theorem testBit_litValue (l : List Char) {j : Nat} (hj : j < l.length) :
    (litValue l).testBit (l.length - 1 - j) = (l[j]? == some '1') := by
  induction l generalizing j with
  | nil => exact absurd hj (Nat.not_lt_zero j)
  | cons c cs ih =>
    cases j with
    | zero =>
      have htop : (litValue cs).testBit cs.length = false := Nat.testBit_lt_two_pow (litValue_lt cs)
      by_cases hc : c = '1'
      · simp [litValue, hc, Nat.testBit_two_pow_add_eq, htop]
      · simp [litValue, hc, htop]
    | succ k =>
      have hk : k < cs.length := Nat.lt_of_succ_lt_succ hj
      have hpos : (c :: cs).length - 1 - (k + 1) = cs.length - 1 - k := by rw [List.length_cons]; omega
      rw [hpos, litValue, List.getElem?_cons_succ, ← ih hk]
      split
      · exact Nat.testBit_two_pow_add_gt (by omega) _
      · rw [Nat.zero_add]

/-- A mask is the value of a literal exactly when its bits are the literal's characters. -/
theorem eq_ofNat_litValue_iff {l : List Char} (hlen : l.length = 16) (v : Mask) :
    v = BitVec.ofNat 16 (litValue l) ↔ ∀ j, j ≤ 15 → v.getLsbD (15 - j) = (l[j]? == some '1') := by
  have hbit : ∀ j, j ≤ 15 → (BitVec.ofNat 16 (litValue l)).getLsbD (15 - j) = (l[j]? == some '1') := by
    intro j hj
    have h := testBit_litValue l (j := j) (by omega)
    rw [hlen] at h
    rw [BitVec.getLsbD_ofNat, h, decide_eq_true (by omega), Bool.true_and]
  refine ⟨fun h j hj => h ▸ hbit j hj, fun h => BitVec.eq_of_getLsbD_eq fun i hi => ?_⟩
  have hi' : 15 - (15 - i) = i := by omega
  rw [← hi', h _ (by omega), hbit _ (by omega)]

/-- Settles O19: the decoder accepts literals, and the bits of the mask are those of the string's value. -/
theorem literalDecoderReadsSixteenBits : Obligations.LiteralDecoderReadsSixteenBits := by
  refine ⟨fun l v => ?_, fun l h => litDecode_of_not_isLiteral h⟩
  rw [litDecode_eq_ok_iff, IsLiteral, and_assoc]
  exact and_congr_right fun hlen => and_congr_right fun _ => eq_ofNat_litValue_iff hlen v

theorem length_litEncode (v : Mask) : (litEncode v).length = 16 := by
  rw [litEncode, List.length_map, List.length_range]

theorem getElem?_litEncode (v : Mask) {j : Nat} (hj : j ≤ 15) :
    (litEncode v)[j]? = some (if v.getLsbD (15 - j) then '1' else '0') := by
  rw [litEncode, List.getElem?_map, List.getElem?_range (by omega), Option.map_some]

theorem isLiteral_litEncode (v : Mask) : IsLiteral (litEncode v) := by
  refine ⟨length_litEncode v, fun c hc => ?_⟩
  obtain ⟨j, -, rfl⟩ := List.mem_map.mp hc
  cases v.getLsbD (15 - j)
  · exact .inl rfl
  · exact .inr rfl

/-- Settles O20: the literal of a mask is one, and its characters are the mask's bits. -/
theorem literalRoundTrip : Obligations.LiteralRoundTrip := by
  intro v
  refine ⟨length_litEncode v, fun j hj => getElem?_litEncode v hj, ?_⟩
  refine litDecode_eq_ok_iff.mpr ⟨isLiteral_litEncode v, (eq_ofNat_litValue_iff (length_litEncode v) v).mpr ?_⟩
  intro j hj
  rw [getElem?_litEncode v hj]
  cases v.getLsbD (15 - j) <;> rfl

/-! ## Building from literals (R66, R69, R113) -/

theorem litDecode_cases (l : List Char) : (∃ m, litDecode l = .ok m) ∨ litDecode l = .error .invalidCharacterLiteral := by
  by_cases h : IsLiteral l
  · exact .inl ⟨_, litDecode_of_isLiteral h⟩
  · exact .inr (litDecode_of_not_isLiteral h)

/-- A list of literals decodes to the mask of each, or one is invalid and R69's error is the answer. -/
theorem decodeLiterals_cases (ls : List (List Char)) :
    (∃ ms, decodeLiterals ls = .ok ms ∧ ls.map litDecode = ms.map .ok) ∨
      decodeLiterals ls = .error .invalidCharacterLiteral := by
  induction ls with
  | nil => exact .inl ⟨[], rfl, rfl⟩
  | cons l ls ih =>
    rcases litDecode_cases l with ⟨m, hm⟩ | hm
    · rcases ih with ⟨ms, hms, hmap⟩ | hms
      · exact .inl ⟨m :: ms, by simp [decodeLiterals, hm, hms], by simp [hm, hmap]⟩
      · exact .inr (by simp [decodeLiterals, hm, hms])
    · exact .inr (by simp [decodeLiterals, hm])

theorem map_litDecode_of_decodeLiterals {ls : List (List Char)} {ms : List Mask} (h : decodeLiterals ls = .ok ms) :
    ls.map litDecode = ms.map .ok := by
  rcases decodeLiterals_cases ls with ⟨ms', h', hmap⟩ | h' <;> rw [h] at h' <;> cases h'
  exact hmap

theorem exists_mask_of_decodeLiterals {ls : List (List Char)} {ms : List Mask} (h : decodeLiterals ls = .ok ms)
    {l : List Char} (hl : l ∈ ls) : ∃ m, litDecode l = .ok m := by
  have hmem : litDecode l ∈ ms.map Except.ok := map_litDecode_of_decodeLiterals h ▸ List.mem_map_of_mem hl
  obtain ⟨m, -, hm⟩ := List.mem_map.mp hmem
  exact ⟨m, hm.symm⟩

theorem decodeLiterals_of_invalid {ls : List (List Char)} {l : List Char} (hl : l ∈ ls)
    (hinv : litDecode l = .error .invalidCharacterLiteral) : decodeLiterals ls = .error .invalidCharacterLiteral := by
  rcases decodeLiterals_cases ls with ⟨ms, h, -⟩ | h
  · obtain ⟨m, hm⟩ := exists_mask_of_decodeLiterals h hl
    rw [hinv] at hm
    cases hm
  · exact h

/-- The mask at a literal's place in the decoded list. -/
theorem litDecode_getD_of_decodeLiterals {ls : List (List Char)} {ms : List Mask} (h : decodeLiterals ls = .ok ms) {k : Nat}
    {l : List Char} (hl : ls[k]? = some l) : litDecode l = .ok (ms.getD k 0) := by
  have hk := congrArg (·[k]?) (map_litDecode_of_decodeLiterals h)
  simp only [List.getElem?_map, hl, Option.map_some] at hk
  obtain ⟨m, hm, hok⟩ := Option.map_eq_some_iff.mp hk.symm
  rw [List.getD_eq_getElem?_getD, hm, Option.getD_some, hok]

/-- A build from literals, where it succeeds: the decoded tables, and keys that are valid (R66). -/
theorem buildFromLiterals_ok {default : List (List Char)} {custom : Option (List (CodePoint × List Char))} {n : Fin 24}
    {b : Build} (h : buildFromLiterals default custom n = .ok b) :
    decodeLiterals default = .ok b.defaultTable ∧ b.busErrIndex = n ∧ b.customMap.isSome = custom.isSome ∧
      ∀ entries, custom = some entries → keysValid (entries.map (·.1)) = true ∧
        ∃ masks, decodeLiterals (entries.map (·.2)) = .ok masks ∧ b.customMap = some ((entries.map (·.1)).zip masks) := by
  unfold buildFromLiterals at h
  split at h
  · cases h
  next table htable =>
  split at h
  · cases h
    exact ⟨htable, rfl, rfl, nofun⟩
  next entries =>
  split at h
  · cases h
  next masks hmasks =>
  split at h
  · next hkeys =>
    cases h
    refine ⟨htable, rfl, rfl, ?_⟩
    rintro _ ⟨⟩
    exact ⟨hkeys, masks, hmasks, rfl⟩
  · cases h

theorem buildFromLiterals_of_default_invalid {default : List (List Char)}
    (h : decodeLiterals default = .error .invalidCharacterLiteral) (custom : Option (List (CodePoint × List Char)))
    (n : Fin 24) : buildFromLiterals default custom n = .error .invalidCharacterLiteral := by
  simp [buildFromLiterals, h]

theorem buildFromLiterals_of_custom_invalid (default : List (List Char)) {entries : List (CodePoint × List Char)}
    (h : decodeLiterals (entries.map (·.2)) = .error .invalidCharacterLiteral) (n : Fin 24) :
    buildFromLiterals default (some entries) n = .error .invalidCharacterLiteral := by
  rcases decodeLiterals_cases default with ⟨table, htable, -⟩ | hdefault
  · simp [buildFromLiterals, htable, h]
  · exact buildFromLiterals_of_default_invalid hdefault _ n

theorem keysValid_iff (keys : List CodePoint) : keysValid keys = true ↔ (∀ c ∈ keys, c ≤ 0x10FFFF) ∧ keys.Nodup := by
  have hle : ∀ c : CodePoint, (!decide (lastCodePoint < c)) = true ↔ c ≤ 0x10FFFF := fun c => by
    rw [Bool.not_eq_true', decide_eq_false_iff_not, BitVec.not_lt, lastCodePoint]
  simp only [keysValid, Bool.and_eq_true, List.all_eq_true, decide_eq_true_eq, hle]

/-- Each entry of a custom map stands in the built list with its literal's mask. -/
theorem exists_mem_zip_of_decodeLiterals {entries : List (CodePoint × List Char)} {masks : List Mask}
    (h : decodeLiterals (entries.map (·.2)) = .ok masks) {e : CodePoint × List Char} (he : e ∈ entries) :
    ∃ m, litDecode e.2 = .ok m ∧ (e.1, m) ∈ (entries.map (·.1)).zip masks := by
  have hzip : entries.map (fun e => (e.1, litDecode e.2)) =
      ((entries.map (·.1)).zip masks).map (Prod.map id .ok) := by
    rw [← List.zip_map_right, ← map_litDecode_of_decodeLiterals h, List.map_map, List.zip_map']
    rfl
  have hmem : (e.1, litDecode e.2) ∈ entries.map (fun e => (e.1, litDecode e.2)) := List.mem_map_of_mem he
  rw [hzip] at hmem
  obtain ⟨⟨c, m⟩, hm, heq⟩ := List.mem_map.mp hmem
  obtain ⟨rfl, hdec⟩ := Prod.mk.inj heq
  exact ⟨m, hdec.symm, hm⟩

/-- A built custom map reads back each entry, for its keys are distinct. -/
theorem litDecode_customMap_of_built {entries : List (CodePoint × List Char)} {masks : List Mask} {b : Build}
    (hkeys : keysValid (entries.map (·.1)) = true) (hmasks : decodeLiterals (entries.map (·.2)) = .ok masks)
    (hb : b.customMap = some ((entries.map (·.1)).zip masks)) {e : CodePoint × List Char} (he : e ∈ entries) :
    litDecode e.2 = .ok (customMap b e.1) := by
  obtain ⟨hlast, hnodup⟩ := (keysValid_iff _).mp hkeys
  obtain ⟨m, hm, hmem⟩ := exists_mem_zip_of_decodeLiterals hmasks he
  have hnodup' : (((entries.map (·.1)).zip masks).map Prod.fst).Nodup := by
    have hlen := congrArg List.length (map_litDecode_of_decodeLiterals hmasks)
    simp only [List.length_map] at hlen
    rwa [List.map_fst_zip (by simp [hlen])]
  have huniq : ∀ m', (e.1, m') ∈ (entries.map (·.1)).zip masks → m' = m := fun m' hm' =>
    congrArg Prod.snd (List.inj_on_of_nodup_map hnodup' hm' hmem rfl)
  rw [customMap_of_some hb, if_neg (BitVec.not_lt.mpr (hlast _ (List.mem_map_of_mem he))),
    lookup_eq_some_of_unique hmem huniq, Option.getD_some, hm]

/-- Settles O21: every literal is decoded before anything is built, and the tables are the decoded lists. -/
theorem onlyValidLiteralsBuildABlock : Obligations.OnlyValidLiteralsBuildABlock := by
  constructor
  · rintro default custom n l (hl | ⟨entries, rfl, hl⟩) hinv
    · exact buildFromLiterals_of_default_invalid (decodeLiterals_of_invalid hl hinv) custom n
    · exact buildFromLiterals_of_custom_invalid default (decodeLiterals_of_invalid hl hinv) n
  · intro default custom n b h
    obtain ⟨hdefault, hn, hsome, hcustom⟩ := buildFromLiterals_ok h
    refine ⟨hsome, by rw [Build.busErrWidth, hn], fun l hl => exists_mask_of_decodeLiterals hdefault hl, ?_, ?_⟩
    · intro c l hlow hhigh hp hl
      rw [defaultMap_of_mapped b hlow hhigh hp]
      exact litDecode_getD_of_decodeLiterals hdefault hl
    · intro entries he e hmem
      obtain ⟨hkeys, masks, hmasks, hb⟩ := hcustom entries he
      exact litDecode_customMap_of_built hkeys hmasks hb hmem

/-! ## The commands that only respond (R71, R104, R105, R115) -/

/-- An OK response is its data, zero-extended (R54). -/
theorem respondOk_eq_responding (data : BitVec 28) (s : State) : respondOk data s = s.responding (data.setWidth 32) :=
  congrArg s.responding (BitVec.setWidth_eq_append (by decide)).symm

theorem exec_lookup (s : State) (cp : CodePoint) :
    exec (.lookup cp) s = .next (s.responding ((lutRead s cp).setWidth 32)) := by
  rw [exec, execLookup, respondOk_eq_responding, BitVec.setWidth_setWidth (by decide)]

/-- NOP, LOOKUP, STATUS and RESERVED answer some response word, and that is their whole effect. -/
theorem exec_responseOnly {i : Instr} (hi : i = .nop ∨ (∃ cp, i = .lookup cp) ∨ i = .status ∨ i = .reserved) (s : State) :
    ∃ w, exec i s = .next (s.responding w) := by
  rcases hi with rfl | ⟨cp, rfl⟩ | rfl | rfl
  · exact ⟨_, rfl⟩
  · exact ⟨_, exec_lookup s cp⟩
  · exact ⟨_, rfl⟩
  · exact ⟨_, exec_reserved s⟩

/-- Settles O39: the next state is the old one with a response word given. -/
theorem frameOfResponseOnlyCommands : Obligations.FrameOfResponseOnlyCommands := by
  intro i s t hi h
  obtain ⟨w, hw⟩ := exec_responseOnly hi s
  cases hw.symm.trans h
  exact ⟨rfl, fun _ => rfl⟩

/-- The oldest word that waits is accepted as what it decodes to. -/
theorem acceptedAs_of_decodeCommand {s : State} {w : Word} {i : Instr}
    (hd : decodeCommand s.build.hasCustomMap w = i) : AcceptedAs w i s := by
  intro hidle hv hr ws hw
  rw [← hd]
  exact (stepRunsTheAcceptedCommand s ((portReady_iff s).mpr ⟨hidle, hv⟩) hr).1 w ws hw

/-- Settles O28: LOOKUP's response word, its decoding, and '.' under the default map. -/
theorem lookupReturnsTheMask : Obligations.LookupReturnsTheMask := by
  refine ⟨exec_lookup, fun s w hop => acceptedAs_of_decodeCommand (decodeCommand_lookup hop), fun s hs => ?_⟩
  rw [exec_lookup, lutRead_default hs, defaultMap_of_unmapped _ (.inr (.inr rfl))]
  rfl

end Sys2Proof

/-! PROOFS of the family 41_init_fsm: INIT, the answers to its three writes, and the bring-up as a run of steps. -/

namespace Sys2Proof

open Machine

/-! ## What INIT and SHOW leave unchanged (R74, R81, R95) -/

/-- A host command writes registers of the block only, and nothing around it. -/
theorem exec_hostCommand_eq {i : Instr} {s t : State} (hc : hostCommand i = true) (h : exec i s = .next t) :
    t = { s with
      st := t.st, addr := t.addr, mapSel := t.mapSel, cells := t.cells, ncells := t.ncells, pend := t.pend
      pmask := t.pmask, ovf := t.ovf, txbuf := t.txbuf, respValid := t.respValid, resp := t.resp } := by
  obtain ⟨hbuild, hwait, hin, hlog, hresp, hchip⟩ := exec_hostCommand_frame hc h
  rw [← hbuild, ← hwait, ← hin, ← hlog, ← hresp, ← hchip]

/-- Of the host commands, only SHOW writes `txbuf` (R20). -/
theorem CommandCase.txbuf_eq {i : Instr} {s t : State} (h : CommandCase i s t) (hi : i ≠ .showText) :
    t.txbuf = s.txbuf := by
  cases h with
  | responds code data u hu hle hne ht => rw [ht]; exact hu.encoderOnly.txbuf
  | startsBringUp a c hinit hmap ht => rw [ht]; rfl
  | startsFrame c n hshow hst ht => exact absurd hshow hi

/-- Of the host commands, only INIT writes `addr` and `map_sel` (R15, R16). -/
theorem CommandCase.addr_mapSel_eq {i : Instr} {s t : State} (h : CommandCase i s t) (hi : ∀ a c, i ≠ .init a c) :
    t.addr = s.addr ∧ t.mapSel = s.mapSel := by
  cases h with
  | responds code data u hu hle hne ht => rw [ht]; exact ⟨hu.encoderOnly.addr, hu.encoderOnly.mapSel⟩
  | startsBringUp a c hinit hmap ht => exact absurd hinit (hi a c)
  | startsFrame c n hshow hst ht => rw [ht]; exact ⟨rfl, rfl⟩

/-- A host command tells the chip nothing. -/
theorem exec_hostCommand_ram {i : Instr} {s t : State} (hc : hostCommand i = true) (h : exec i s = .next t) (x : Nat) :
    t.chip.ram.read x = s.chip.ram.read x := by
  obtain ⟨-, -, -, -, -, hchip⟩ := exec_hostCommand_frame hc h
  rw [hchip]

/-- Settles O41: of the registers a host command may write, INIT leaves `txbuf`, and SHOW `addr` and `map_sel`. -/
theorem frameOfInitAndShow : Obligations.FrameOfInitAndShow := by
  constructor
  · intro a c s t h
    have htx : t.txbuf = s.txbuf := (exec_hostCommand_cases rfl h).txbuf_eq nofun
    refine ⟨?_, exec_hostCommand_ram rfl h⟩
    rw [← htx]
    exact exec_hostCommand_eq rfl h
  · intro s t h
    obtain ⟨haddr, hmap⟩ := (exec_hostCommand_cases rfl h).addr_mapSel_eq nofun
    refine ⟨?_, exec_hostCommand_ram rfl h⟩
    rw [← haddr, ← hmap]
    exact exec_hostCommand_eq rfl h

/-! ## INIT (R74) -/

/-- What R74 checks of INIT: a block without a custom map has no `custom = 1`. -/
theorem custom_and_not_eq_false_iff {custom hasMap : Bool} :
    (custom && !hasMap) = false ↔ custom = false ∨ hasMap = true := by
  cases custom <;> simp

theorem exec_init_legal {s : State} {custom : Bool} (a : DevAddr)
    (hlegal : custom = false ∨ s.build.hasCustomMap = true) :
    exec (.init a custom) s = .next { encClear s with addr := a, mapSel := custom, st := .initOsc } :=
  if_neg (Bool.eq_false_iff.mp (custom_and_not_eq_false_iff.mpr hlegal))

theorem exec_init_illegal {s : State} {custom : Bool} (a : DevAddr) (hcustom : custom = true)
    (hmap : s.build.hasCustomMap = false) : exec (.init a custom) s = .next (s.responding 0x40000000) :=
  if_pos (by simp [hcustom, hmap])

theorem decodeCommand_init_legal {h : Bool} {w : Word} (hop : opField w = 0x1)
    (hlegal : w.getLsbD 7 = false ∨ h = true) :
    decodeCommand h w = .init (w.extractLsb' 0 7) (w.getLsbD 7) :=
  (decodeCommand_init hop).trans (if_neg (Bool.eq_false_iff.mp (custom_and_not_eq_false_iff.mpr hlegal)))

theorem decodeCommand_init_illegal {h : Bool} {w : Word} (hop : opField w = 0x1) (hcustom : w.getLsbD 7 = true)
    (hmap : h = false) : decodeCommand h w = .reserved :=
  (decodeCommand_init hop).trans (if_pos (by simp [customField, hcustom, hmap]))

/-- Settles O23: R74's check, made by the decoder and by the meaning, divides the words and the effects alike. -/
theorem initStartsTheBringUp : Obligations.InitStartsTheBringUp :=
  ⟨fun _ a _ => ⟨fun hlegal => ⟨exec_init_legal a hlegal, rfl⟩, exec_init_illegal a⟩,
    fun _ _ hop hlegal => acceptedAs_of_decodeCommand (decodeCommand_init_legal hop hlegal),
    fun _ _ hop hcustom hmap => acceptedAs_of_decodeCommand (decodeCommand_init_illegal hop hcustom hmap)⟩

/-! ## The answers to the three writes (R75, R76, R77) -/

/-- The three writes of the bring-up (R73): the busy state, the byte written, and the stage an error reports (R110). -/
inductive BringUpWrite : Ctrl → Byte → BitVec 2 → Prop
  | osc : BringUpWrite .initOsc 0x21 0
  | disp : BringUpWrite .initDisp 0x81 1
  | brt : BringUpWrite .initBrt 0xEF 2

theorem BringUpWrite.outstanding_eq {s : State} {c : Ctrl} {b : Byte} {stage : BitVec 2} (hw : BringUpWrite c b stage)
    (hst : s.st = c) : outstanding s = some ⟨.cmd1, s.addr, [b]⟩ := by
  cases hw <;> rw [outstanding, hst] <;> rfl

theorem BringUpWrite.answerRule_err {c : Ctrl} {b : Byte} {stage : BitVec 2} (hw : BringUpWrite c b stage)
    (e : BitVec 24) (s : State) : answerRule c (.err e) s = bringUpFailed stage e s := by
  cases hw <;> rfl

/-- The word of a bus error, field by field (R54). -/
theorem busError_word (stage : BitVec 2) (e : BitVec 24) :
    errorCode (.busTransaction stage e) ++ errorData (.busTransaction stage e) = 0x1#4 ++ stage ++ 0#2 ++ e := by
  rw [BitVec.append_assoc, BitVec.append_assoc, errorData, BitVec.append_assoc]
  rfl

/-- A bring-up that failed stands in FAILED with its BUS_ERROR waiting (R78). -/
theorem bringUpFailed_result (stage : BitVec 2) (e : BitVec 24) (s : State) :
    (bringUpFailed stage e s).st = .failed ∧ (bringUpFailed stage e s).respValid = true ∧
      (bringUpFailed stage e s).resp = 0x1#4 ++ stage ++ 0#2 ++ e :=
  ⟨rfl, rfl, busError_word stage e⟩

/-- The outstanding row, answered as the bus can, runs its rule. -/
theorem exec_answered_fits {s : State} {i : Instr} {r : BusAnswer} {rest : List Input}
    (ho : outstandingInstr s = some i) (hi : s.inputs = .answer r :: rest) (hf : r.fits s.build = true) :
    exec i s = .next (answerRule s.st r (endTransaction r rest s)) :=
  (exec_answered ho hi).trans (if_pos hf)

/-- A bring-up write answered with an error ends the bring-up in FAILED, with BUS_ERROR and the write's stage (R78). -/
theorem exec_bringUp_fails {s : State} {i : Instr} {c : Ctrl} {b : Byte} {stage : BitVec 2} {e : BitVec 24}
    {rest : List Input} (hw : BringUpWrite c b stage) (hst : s.st = c) (ho : outstandingInstr s = some i)
    (he : e.toNat < 2 ^ s.build.busErrWidth) (hi : s.inputs = .answer (.err e) :: rest) :
    ∃ t, exec i s = .next t ∧ t.st = .failed ∧ t.respValid = true ∧ t.resp = 0x1#4 ++ stage ++ 0#2 ++ e := by
  have hexec := exec_answered_fits ho hi (by simpa using he)
  rw [hst, hw.answerRule_err] at hexec
  exact ⟨_, hexec, bringUpFailed_result stage e _⟩

/-- A bring-up write answered OK, whose rule only goes on to `c'`, leaves the write of `c'` outstanding and gives no response. -/
theorem exec_bringUp_goesOn {s : State} {i : Instr} {c c' : Ctrl} {b' : Byte} {stage' : BitVec 2} {rest : List Input}
    (hw' : BringUpWrite c' b' stage') (hst : s.st = c) (hrule : ∀ u, answerRule c .ok u = { u with st := c' })
    (ho : outstandingInstr s = some i) (hi : s.inputs = .answer .ok :: rest) :
    ∃ t, exec i s = .next t ∧ t.st = c' ∧ outstanding t = some ⟨.cmd1, s.addr, [b']⟩ ∧ t.resp = s.resp ∧
      t.respValid = s.respValid := by
  have hexec := exec_answered_fits ho hi rfl
  rw [hst, hrule] at hexec
  exact ⟨_, hexec, rfl, (hw'.outstanding_eq rfl).trans (by simp), by simp, by simp⟩

/-- Settles O32: the oscillator's write goes on to the display's, or fails. -/
theorem oscillatorWriteAnswered : Obligations.OscillatorWriteAnswered := by
  intro s rest hst
  have ho : outstandingInstr s = some .busOscOn := by simp [outstandingInstr, hst]
  exact ⟨BringUpWrite.osc.outstanding_eq hst, exec_bringUp_goesOn .disp hst (fun _ => rfl) ho,
    fun _ => exec_bringUp_fails .osc hst ho⟩

/-- Settles O33: the display's write goes on to the brightness's, or fails. -/
theorem displayOnWriteAnswered : Obligations.DisplayOnWriteAnswered := by
  intro s rest hst
  have ho : outstandingInstr s = some .busDispOn := by simp [outstandingInstr, hst]
  exact ⟨BringUpWrite.disp.outstanding_eq hst, exec_bringUp_goesOn .brt hst (fun _ => rfl) ho,
    fun _ => exec_bringUp_fails .disp hst ho⟩

/-- Settles O34: the brightness's write completes the bring-up, or fails. -/
theorem brightnessWriteAnswered : Obligations.BrightnessWriteAnswered := by
  intro s rest hst
  have ho : outstandingInstr s = some .busBrightness := by simp [outstandingInstr, hst]
  refine ⟨BringUpWrite.brt.outstanding_eq hst, fun hi => ?_, fun _ => exec_bringUp_fails .brt hst ho⟩
  have hexec := exec_answered_fits ho hi rfl
  rw [hst] at hexec
  exact ⟨_, hexec, rfl, rfl, rfl⟩

/-! ## The bring-up as a run (R80) -/

/-- One step more at the end of a run. -/
theorem runSteps_succ_right {n : Nat} {s t u : State} (hrun : runSteps n s = .next t) (h : step t = .next u) :
    runSteps (n + 1) s = .next u := by
  induction n generalizing s with
  | zero => cases hrun; simp [runSteps, h]
  | succ n ih =>
    rw [runSteps] at hrun
    split at hrun
    · next v hv => rw [runSteps, hv]; exact ih hrun
    all_goals cases hrun

/-- `t` is in the bring-up of device `a` that a run from `s` has begun: it stands in `c`, with the moves `ins` to come and, since
`s`, the transactions of `log` ended. -/
structure BringUpFrom (s : State) (a : DevAddr) (ins : List Input) (log : List BusRecord) (c : Ctrl) (t : State) : Prop where
  st : t.st = c
  addr : t.addr = a
  build : t.build = s.build
  inputs : t.inputs = ins
  busLog : t.busLog = s.busLog ++ log

/-- `n` steps lead from `s` into the bring-up of device `a`. -/
def ReachesBringUp (s : State) (n : Nat) (a : DevAddr) (ins : List Input) (log : List BusRecord) (c : Ctrl) : Prop :=
  ∃ t, runSteps n s = .next t ∧ BringUpFrom s a ins log c t

/-- A legal INIT offered to a ready port brings the block to the first write (R74). -/
theorem reachesBringUp_of_offer {s : State} {a : DevAddr} {custom : Bool} {w : Word} {ins : List Input}
    (hp : s.portReady = true) (hw : s.waiting = []) (hlegal : custom = false ∨ s.build.hasCustomMap = true)
    (hcode : encode (.init a custom) = .command w) (hi : s.inputs = .offer w :: ins) :
    ReachesBringUp s 1 a ins [] .initOsc := by
  obtain rfl : formatFI 0x1 custom a = w := Code.command.inj hcode
  have hwf : (Instr.init a custom).wf s.build.hasCustomMap = true := by simpa [Instr.wf] using hlegal
  have hstep := (stepRunsTheAcceptedCommand s hp (by simp [resetNext, hi])).2 _ ins hw hi
  rw [decodeCommand_formatFI a hwf] at hstep
  exact ⟨_, runSteps_succ_right rfl (hstep.trans (exec_init_legal a hlegal)), rfl, rfl, rfl, rfl,
    (List.append_nil _).symm⟩

section

variable {s t : State} {n : Nat} {a : DevAddr} {ins : List Input} {log : List BusRecord} {c c' : Ctrl} {b : Byte}
  {stage : BitVec 2} {r : BusAnswer}

/-- The step that answers a bring-up write runs the rule of its state, and the write joins the observed list. -/
theorem BringUpFrom.step_answered (h : BringUpFrom s a (.answer r :: ins) log c t) (hw : BringUpWrite c b stage)
    (hf : r.fits s.build = true) :
    ∃ u, step t = .next u ∧ u = answerRule c r (endTransaction r ins t) ∧
      u.busLog = s.busLog ++ (log ++ [⟨⟨.cmd1, a, [b]⟩, some r⟩]) := by
  obtain ⟨hst, rfl, hbuild, hi, hlog⟩ := h
  have htx := hw.outstanding_eq hst
  obtain ⟨-, i, -, ho⟩ := exists_outstanding_of_busy ((busy_iff_outstanding t).mpr ⟨_, htx⟩)
  have hexec := exec_answered_fits ho hi (hbuild ▸ hf)
  rw [hst] at hexec
  refine ⟨_, (step_answer ho hi).trans hexec, rfl, ?_⟩
  rw [(answerRule_endTransaction htx c r ins).2.1, hlog, List.append_assoc]

/-- A write answered OK, whose rule only goes on to `c'`, leaves the bring-up there. -/
theorem ReachesBringUp.goesOn (h : ReachesBringUp s n a (.answer .ok :: ins) log c) (hw : BringUpWrite c b stage)
    (hrule : ∀ u, answerRule c .ok u = { u with st := c' }) :
    ReachesBringUp s (n + 1) a ins (log ++ [⟨⟨.cmd1, a, [b]⟩, some .ok⟩]) c' := by
  obtain ⟨t, hrun, ht⟩ := h
  obtain ⟨u, hstep, hu, hlog⟩ := ht.step_answered hw rfl
  rw [hrule] at hu
  exact ⟨u, runSteps_succ_right hrun hstep, by rw [hu], by simp [hu, ht.addr], by simp [hu, ht.build], by simp [hu], hlog⟩

/-- The word of a bus error as R80's table writes it: the stage's word, with the code in its low bits. -/
theorem busError_word_eq_or (stage : BitVec 2) (e : BitVec 24) :
    (0x1#4 ++ stage ++ 0#2 ++ e : Word) = (0x1#4 ++ stage ++ 0#2 ++ 0#24) ||| e.setWidth 32 := by
  have hzext : e.setWidth 32 = 0#8 ++ e := BitVec.setWidth_eq_append (by decide)
  rw [hzext, BitVec.or_append, BitVec.or_zero, BitVec.zero_or]

/-- A write answered with an error ends the bring-up in FAILED, with BUS_ERROR and the write's stage (R78). -/
theorem ReachesBringUp.fails {e : BitVec 24} (h : ReachesBringUp s n a (.answer (.err e) :: ins) log c)
    (hw : BringUpWrite c b stage) (he : e.toNat < 2 ^ s.build.busErrWidth) :
    ∃ u, runSteps (n + 1) s = .next u ∧ u.st = .failed ∧ u.respValid = true ∧
      u.resp = (0x1#4 ++ stage ++ 0#2 ++ 0#24) ||| e.setWidth 32 ∧
      u.busLog = s.busLog ++ (log ++ [⟨⟨.cmd1, a, [b]⟩, some (.err e)⟩]) := by
  obtain ⟨t, hrun, ht⟩ := h
  obtain ⟨u, hstep, hu, hlog⟩ := ht.step_answered hw (by simpa using he)
  rw [hw.answerRule_err] at hu
  obtain ⟨hst, hv, hresp⟩ := hu ▸ bringUpFailed_result stage e (endTransaction (.err e) ins t)
  exact ⟨u, runSteps_succ_right hrun hstep, hst, hv, hresp.trans (busError_word_eq_or stage e), hlog⟩

/-- The brightness's write answered OK completes the bring-up (R77). -/
theorem ReachesBringUp.completes (h : ReachesBringUp s n a (.answer .ok :: ins) log .initBrt) :
    ∃ u, runSteps (n + 1) s = .next u ∧ u.st = .ready ∧ u.respValid = true ∧ u.resp = 0 ∧
      u.busLog = s.busLog ++ (log ++ [⟨⟨.cmd1, a, [0xEF]⟩, some .ok⟩]) := by
  obtain ⟨t, hrun, ht⟩ := h
  obtain ⟨u, hstep, hu, hlog⟩ := ht.step_answered .brt rfl
  exact ⟨u, runSteps_succ_right hrun hstep, by rw [hu]; rfl, by rw [hu]; rfl, by rw [hu]; rfl, hlog⟩

end

/-- Settles O46: each row of R80's table goes on from write to write as long as the answers are OK, and then fails or
completes. -/
theorem initRunsItsThreeWritesInOrder : Obligations.InitRunsItsThreeWritesInOrder := by
  intro s a custom w e rest hp hw hlegal hcode he
  have hosc : ∀ ins, s.inputs = .offer w :: ins → ReachesBringUp s 1 a ins [] .initOsc :=
    fun _ => reachesBringUp_of_offer hp hw hlegal hcode
  have hdisp := fun ins hi => (hosc (.answer .ok :: ins) hi).goesOn .osc (c' := .initDisp) fun _ => rfl
  have hbrt := fun ins hi => (hdisp (.answer .ok :: ins) hi).goesOn .disp (c' := .initBrt) fun _ => rfl
  exact ⟨fun hi => (hosc _ hi).fails .osc he, fun hi => (hdisp _ hi).fails .disp he,
    fun hi => (hbrt _ hi).fails .brt he, fun hi => (hbrt _ hi).completes⟩

end Sys2Proof

/-! PROOFS of the family 42_text_encoder: the encoder's clear and commit, the commands CHAR, MASK and CLEAR, and how many
cells a text has. -/

namespace Sys2Proof

open Machine

/-! ## The encoder's clear (R86) -/

theorem exec_char_of_not_ready {s : State} (cp : CodePoint) (hst : s.st ≠ .ready) :
    exec (.char cp) s = .next ((encClear s).responding 0x30000000) := if_pos hst

theorem exec_mask_of_not_ready {s : State} (m : Mask) (hst : s.st ≠ .ready) :
    exec (.mask m) s = .next ((encClear s).responding 0x30000000) := if_pos hst

theorem exec_clear (s : State) : exec .clear s = .next ((encClear s).responding 0x00000000) := rfl

/-- Outside READY, with an overlong text, and with a frame to send, SHOW clears the encoder (R95). -/
theorem encoderClear_of_exec_showText {s t : State} (h : exec .showText s = .next t) : EncoderClear t := by
  rw [exec, execShowText] at h
  split at h
  · cases h
    exact { encoderClear_encClear s with }
  · simp only [encClear_flushPending] at h
    split at h <;> cases h <;> exact { encoderClear_encClear s with }

/-- Settles O15: the next state of each of the rules R86 names is the cleared one, with other registers written. -/
theorem encClearEmptiesTheEncoder : Obligations.EncClearEmptiesTheEncoder := by
  refine ⟨fun s => rfl, fun s t a c hlegal h => ?_, fun s t h => ?_, fun s t i hst hi h => ?_⟩
  · cases (exec_init_legal a hlegal).symm.trans h
    exact { encoderClear_encClear s with }
  · rcases h with hshow | hclear | rfl
    · exact encoderClear_of_exec_showText hshow
    · cases (exec_clear s).symm.trans hclear
      exact { encoderClear_encClear s with }
    · exact { encoderClear_encClear s with }
  · rcases hi with ⟨cp, rfl⟩ | ⟨m, rfl⟩
    · cases (exec_char_of_not_ready cp hst).symm.trans h
      exact { encoderClear_encClear s with }
    · cases (exec_mask_of_not_ready m hst).symm.trans h
      exact { encoderClear_encClear s with }

/-! ## Commit (R87) -/

/-- Below four, the three bits of `ncells` have room for one more. -/
theorem toNat_add_one_of_lt_four {n : BitVec 3} (h : n < 4) : (n + 1).toNat = n.toNat + 1 := by bv_omega

theorem commit_of_lt {s : State} (m : Mask) (h : s.ncells < 4) :
    commit m s = { s with cells := s.cells.set s.ncells.toNat m, ncells := s.ncells + 1 } := if_pos h

theorem commit_of_not_lt {s : State} (m : Mask) (h : ¬s.ncells < 4) : commit m s = { s with ovf := true } := if_neg h

/-- A commit counts a cell only where there are fewer than four. -/
theorem commit_ncells_le {s : State} (m : Mask) (h : s.ncells ≤ 4) : (commit m s).ncells ≤ 4 := by
  by_cases hlt : s.ncells < 4
  · rw [commit_of_lt m hlt]
    bv_omega
  · rw [commit_of_not_lt m hlt]
    exact h

/-- Settles O16: a commit by its two cases, and a step by what it does to the overflow. -/
theorem commitAppendsOrOverflows : Obligations.CommitAppendsOrOverflows := by
  intro m s
  refine ⟨fun hlt => ?_, commit_of_not_lt m, commit_ncells_le m, (Encodes.refl.commit m).ovf_sticks, fun t h ho => ?_⟩
  · have hk : s.ncells.toNat ≤ 3 := Nat.le_of_lt_succ hlt
    exact ⟨_, commit_of_lt m hlt, toNat_add_one_of_lt_four hlt, Cells.get_set_same _ _ m hk,
      fun k hne => Cells.get_set_other _ m hne⟩
  · rcases step_ovf h with hclear | hkept | ⟨-, -, hsticks, -⟩
    · exact .inr hclear
    · exact .inl (hkept.trans ho)
    · exact .inl (hsticks ho)

/-! ## What CHAR, MASK and CLEAR leave unchanged (R88, R89, R90) -/

/-- A host command other than INIT and SHOW responds, and writes of the other registers the encoder's only. -/
theorem CommandCase.encoderOnly {i : Instr} {s t : State} (h : CommandCase i s t) (hinit : ∀ a c, i ≠ .init a c)
    (hshow : i ≠ .showText) : EncoderOnly s t ∧ t.respValid = true := by
  cases h with
  | responds code data u hu hle hne ht => rw [ht]; exact ⟨{ hu.encoderOnly with }, rfl⟩
  | startsBringUp a c hi hc ht => exact absurd hi (hinit a c)
  | startsFrame c n hi hst ht => exact absurd hi hshow

/-- Settles O40: of the registers a host command may write, CHAR, MASK and CLEAR leave all but the encoder's and the
response's. -/
theorem frameOfEncoderCommands : Obligations.FrameOfEncoderCommands := by
  intro i s t hi h
  obtain ⟨hhost, hinit, hshow⟩ : hostCommand i = true ∧ (∀ a c, i ≠ .init a c) ∧ i ≠ .showText := by
    rcases hi with ⟨cp, rfl⟩ | ⟨m, rfl⟩ | rfl <;> exact ⟨rfl, nofun, nofun⟩
  obtain ⟨heo, hvalid⟩ := (exec_hostCommand_cases hhost h).encoderOnly hinit hshow
  refine ⟨?_, exec_hostCommand_ram hhost h⟩
  rw [← heo.st, ← heo.addr, ← heo.mapSel, ← heo.txbuf, ← hvalid]
  exact exec_hostCommand_eq hhost h

/-! ## How many cells a text has (R82, R85) -/

/-- Each cell is of a character of its own. -/
theorem length_encodeCells_le (T : CodePoint → Mask) (t : List CodePoint) : (encodeCells T t).length ≤ t.length := by
  fun_induction encodeCells T t with
  | case1 | case2 c => simp
  | case3 c rest ih => simp only [List.length_cons]; omega
  | case4 c d rest hd ih => simpa using ih

/-- Each cell uses up at most two characters. -/
theorem half_length_le_length_encodeCells (T : CodePoint → Mask) (t : List CodePoint) :
    (t.length + 1) / 2 ≤ (encodeCells T t).length := by
  fun_induction encodeCells T t with
  | case1 | case2 c => simp
  | case3 c rest ih => simp only [List.length_cons]; omega
  | case4 c d rest hd ih => simp only [List.length_cons] at ih ⊢; omega

/-- Settles O44: the two bounds on the cells, held against the four positions. -/
theorem textLengthBoundsTheCells : Obligations.TextLengthBoundsTheCells := by
  intro T t
  have hlow := half_length_le_length_encodeCells T t
  have hhigh := length_encodeCells_le T t
  exact ⟨hlow, hhigh, fun h => if_pos (by omega), fun h => if_neg (by omega)⟩

/-! ## CHAR, case by case (R88) -/

theorem exec_char_period {s : State} (hst : s.st = .ready) (hp : s.pend = true) :
    exec (.char period) s =
      .next (State.responding { commit (decorate s.pmask) s with pend := false, pmask := 0 } 0x00000000) :=
  (if_neg (not_not.mpr hst)).trans (if_pos ⟨hp, rfl⟩)

theorem exec_char_of_ne_period {s : State} {cp : CodePoint} (hst : s.st = .ready) (hp : s.pend = true)
    (hcp : cp ≠ period) :
    exec (.char cp) s =
      .next (State.responding { commit s.pmask s with pend := true, pmask := lutRead s cp } 0x00000000) := by
  have hlut : lutRead (commit s.pmask s) cp = lutRead s cp := congrFun (encoderOnly_commit s.pmask s).lutRead_eq cp
  have hexec : exec (.char cp) s = .next (respondOk 0 { commit s.pmask s with pmask := lutRead s cp, pend := true }) := by
    simp [exec, execChar, hst, hp, hcp, hlut]
  exact hexec

theorem exec_char_of_not_pend {s : State} (cp : CodePoint) (hst : s.st = .ready) (hp : s.pend = false) :
    exec (.char cp) s = .next (State.responding { s with pend := true, pmask := lutRead s cp } 0x00000000) := by
  have hexec : exec (.char cp) s = .next (respondOk 0 { s with pmask := lutRead s cp, pend := true }) := by
    simp [exec, execChar, hst, hp]
  exact hexec

/-- Settles O25: the four cases of R88, and the decoding of opcode 0x2. -/
theorem charFollowsTheLookAhead : Obligations.CharFollowsTheLookAhead := by
  refine ⟨fun s cp => ⟨exec_char_of_not_ready cp, fun hst hp hcp => ?_, exec_char_of_ne_period,
    exec_char_of_not_pend cp⟩, fun s w hop => acceptedAs_of_decodeCommand (decodeCommand_char hop)⟩
  subst hcp
  exact exec_char_period hst hp

/-! ## MASK, case by case (R89) -/

/-- MASK in READY gives the encoder the pending mask, if there is one, and then its own. -/
theorem exec_mask_of_ready {s : State} (m : Mask) (hst : s.st = .ready) :
    exec (.mask m) s = .next ((commit m (flushPending s)).responding 0x00000000) := if_neg (not_not.mpr hst)

/-- Settles O26: outside READY, or a flush that finds a pending character or none; and the decoding of opcode 0x3. -/
theorem maskAppendsARawCell : Obligations.MaskAppendsARawCell := by
  refine ⟨fun s m => ⟨exec_mask_of_not_ready m, fun hst hp => ?_, fun hst hp => ?_⟩,
    fun s w hop => acceptedAs_of_decodeCommand (decodeCommand_mask hop)⟩
  · rw [exec_mask_of_ready m hst, flushPending, if_pos hp]
  · rw [exec_mask_of_ready m hst, flushPending, if_neg (by simp [hp])]

/-! ## CLEAR (R90) -/

/-- Settles O29: CLEAR's meaning and its word, and the decoding of opcode 0x6. -/
theorem clearDiscardsThePartialText : Obligations.ClearDiscardsThePartialText :=
  ⟨exec_clear, rfl, fun _ _ hop => acceptedAs_of_decodeCommand (decodeCommand_clear hop)⟩

end Sys2Proof

/-! PROOFS of the family 43_frame_writer: the frame's bytes, SHOW by the encoder's contents, the answer to the frame write,
and SHOW as a run of steps. -/

namespace Sys2Proof

open Machine

/-! ## The frame (R93) -/

/-- The low and the high byte of cell `k` stand at 1+2k and 2+2k, and are zero where the cell is not supplied. -/
theorem getElem?_toList_pack (c : Cells) (n : Nat) {k : Nat} (hk : k ≤ 3) :
    (pack c n).toList[1 + 2 * k]? = some ((if k < n then c.get k else 0).extractLsb' 0 8) ∧
      (pack c n).toList[2 + 2 * k]? = some ((if k < n then c.get k else 0).extractLsb' 8 8) := by
  match k, hk with
  | 0, _ | 1, _ | 2, _ | 3, _ => exact ⟨rfl, rfl⟩

/-- The packer looks at the cells supplied only. -/
theorem pack_congr {c d : Cells} {n : Nat} (h : ∀ k, k < n → c.get k = d.get k) : pack c n = pack d n := by
  have hslot : ∀ k, (if k < n then c.get k else 0) = if k < n then d.get k else 0 := fun k =>
    if_ctx_congr Iff.rfl (h k) fun _ => rfl
  simp only [pack, hslot]

/-- There are four cells to pack, whatever the count. -/
theorem pack_of_four_le (c : Cells) {n : Nat} (hn : 4 ≤ n) : pack c n = pack c 4 := by
  obtain ⟨m, rfl⟩ := Nat.exists_eq_add_of_le' hn
  rfl

/-- With no cell supplied the frame is all zero. -/
theorem pack_zero (c : Cells) : pack c 0 = Frame.zero :=
  calc
    pack c 0 = packMasks 0 0 0 0 := rfl
    _ = Frame.zero := rfl

/-- Packing the committed cells as a list is packing them by their count. -/
theorem packList_committed (s : State) : packList (committed s) = pack s.cells s.ncells.toNat := by
  rcases le_total s.ncells.toNat 4 with hn | hn
  · exact packList_take _ hn
  · rw [committed, List.take_of_length_le hn, pack_of_four_le _ hn]
    rfl

/-- Settles O43: the layout byte by byte; bit 14 of a cell is bit 6 of its high byte. -/
theorem packLaysOutTheFrame : Obligations.PackLaysOutTheFrame := by
  refine ⟨fun c n => ⟨rfl, rfl, fun k hk => getElem?_toList_pack c n hk⟩, pack_zero, fun c n k hk hn => ?_,
    fun c n hn => packList_take c hn, fun _ _ _ => pack_congr, rfl⟩
  rw [(getElem?_toList_pack c n hk).2, if_pos hn, Option.map_some, BitVec.getLsbD_extractLsb']
  rfl

/-! ## SHOW, case by case (R95) -/

theorem exec_showText_of_not_ready {s : State} (hst : s.st ≠ .ready) :
    exec .showText s = .next ((encClear s).responding 0x30000000) := if_pos hst

/-- SHOW in READY, where the flush leaves an overflow, answers OVERLONG_TEXT. -/
theorem exec_showText_of_ovf {s : State} (hst : s.st = .ready) (ho : (flushPending s).ovf = true) :
    exec .showText s = .next ((encClear s).responding 0x20000000) := by
  have hexec : exec .showText s = .next (raise .overlongText (encClear s)) := by simp [exec, execShowText, hst, ho]
  exact hexec

/-- SHOW in READY, where the flush leaves no overflow, starts the write of the flushed cells. -/
theorem exec_showText_of_not_ovf {s : State} (hst : s.st = .ready) (ho : (flushPending s).ovf = false) :
    exec .showText s = .next { encClear s with
      txbuf := pack (flushPending s).cells (flushPending s).ncells.toNat, st := .frameTx } := by
  simp [exec, execShowText, hst, ho]

/-- Settles O27: outside READY, and in READY by the overflow the flush leaves; and the decoding of opcode 0x4. -/
theorem showChecksAndSendsTheFrame : Obligations.ShowChecksAndSendsTheFrame := by
  refine ⟨fun s => ⟨exec_showText_of_not_ready, fun u hst hu => ?_⟩,
    fun s w hop => acceptedAs_of_decodeCommand (decodeCommand_showText hop)⟩
  obtain rfl : u = flushPending s := hu
  rw [encClear_flushPending]
  have hidle : s.st.idle = true := (Ctrl.idle_iff _).mpr (.inr (.inl hst))
  exact ⟨fun ho => ⟨exec_showText_of_ovf hst ho, outstanding_of_idle hidle⟩,
    fun ho => ⟨exec_showText_of_not_ovf hst ho, rfl⟩⟩

/-! ## What the flush leaves (R95, R98) -/

theorem length_committed (s : State) : (committed s).length = min s.ncells.toNat 4 := List.length_take

theorem encoderContents_of_pend {s : State} (hp : s.pend = true) : encoderContents s = committed s ++ [s.pmask] := by
  rw [encoderContents, if_pos hp]

theorem encoderContents_of_not_pend {s : State} (hp : s.pend = false) : encoderContents s = committed s := by
  simp [encoderContents, hp]

/-- The flush leaves an overflow exactly where there was one, or the contents are more than four cells. -/
theorem flushPending_ovf_iff (s : State) :
    (flushPending s).ovf = true ↔ s.ovf = true ∨ 4 < (encoderContents s).length := by
  have hlen := length_committed s
  rcases flushPending_cases s with ⟨hp, e⟩ | ⟨hp, e⟩ <;> rw [e]
  · rw [encoderContents_of_pend hp, List.length_append, List.length_singleton]
    rcases commit_cases s.pmask s with ⟨hlt, hcommit⟩ | ⟨hfull, hcommit⟩ <;> rw [hcommit]
    · have hfit : ¬4 < (committed s).length + 1 := by omega
      simp [hfit]
    · have hover : 4 < (committed s).length + 1 := by omega
      simp [hover]
  · have hfit : ¬4 < (encoderContents s).length := by rw [encoderContents_of_not_pend hp]; omega
    simp [hfit]

/-- Where the flush leaves no overflow, what it leaves committed is the contents. -/
theorem committed_flushPending {s : State} (ho : (flushPending s).ovf = false) :
    committed (flushPending s) = encoderContents s := by
  rcases flushPending_cases s with ⟨hp, e⟩ | ⟨hp, e⟩ <;> rw [e] at ho ⊢
  · rcases commit_cases s.pmask s with ⟨hlt, hcommit⟩ | ⟨hfull, hcommit⟩ <;> rw [hcommit] at ho ⊢
    · have hsucc : (s.ncells + 1).toNat = s.ncells.toNat + 1 := toNat_add_one_of_lt_four hlt
      rw [encoderContents_of_pend hp, committed, hsucc]
      exact Cells.take_toList_set _ _ hlt
    · cases ho
  · exact (encoderContents_of_not_pend hp).symm

/-- SHOW in READY answers OVERLONG_TEXT where a fifth cell was attempted or is in the contents. -/
theorem exec_showText_of_overlong {s : State} (hst : s.st = .ready)
    (h : s.ovf = true ∨ 4 < (encoderContents s).length) :
    exec .showText s = .next ((encClear s).responding 0x20000000) :=
  exec_showText_of_ovf hst ((flushPending_ovf_iff s).mpr h)

/-- SHOW in READY starts the write of the contents' frame where they are at most four cells. -/
theorem exec_showText_of_le_four {s : State} (hst : s.st = .ready) (ho : s.ovf = false)
    (hl : (encoderContents s).length ≤ 4) :
    exec .showText s = .next { encClear s with txbuf := packList (encoderContents s), st := .frameTx } := by
  have hflush : (flushPending s).ovf = false := by
    rw [Bool.eq_false_iff, ne_eq, flushPending_ovf_iff, ho]
    simpa using hl
  rw [exec_showText_of_not_ovf hst hflush, ← packList_committed, committed_flushPending hflush]

/-! ## The answer to the frame write (R96) -/

theorem outstanding_frameTx {s : State} (hst : s.st = .frameTx) :
    outstanding s = some ⟨.raw, s.addr, s.txbuf.toList⟩ := by
  rw [outstanding, hst]

theorem outstandingInstr_frameTx {s : State} (hst : s.st = .frameTx) :
    outstandingInstr s = some (.busFrame s.txbuf) := by
  rw [outstandingInstr, hst]

/-- The frame write, answered as the bus can, runs R96's rule. -/
theorem exec_busFrame_answered {s : State} {r : BusAnswer} {rest : List Input} (hst : s.st = .frameTx)
    (hi : s.inputs = .answer r :: rest) (hf : r.fits s.build = true) :
    exec (.busFrame s.txbuf) s = .next (frameAnswered r (endTransaction r rest s)) := by
  rw [exec_answered_fits (outstandingInstr_frameTx hst) hi hf, hst]
  rfl

/-- The Display stays usable, with a response, whatever the answer. -/
theorem frameAnswered_ready (r : BusAnswer) (s : State) :
    (frameAnswered r s).st = .ready ∧ (frameAnswered r s).respValid = true := by
  cases r <;> exact ⟨rfl, rfl⟩

theorem frameAnswered_ok_resp (s : State) : (frameAnswered .ok s).resp = 0 := rfl

theorem frameAnswered_err_resp (e : BitVec 24) (s : State) :
    (frameAnswered (.err e) s).resp = 0x1#4 ++ 3#2 ++ 0#2 ++ e := busError_word 3 e

/-- Settles O35: R96's rule, for each answer. -/
theorem frameWriteAnswered : Obligations.FrameWriteAnswered := by
  refine fun s rest hst => ⟨outstanding_frameTx hst, fun hi => ?_, fun e he hi => ?_⟩
  · obtain ⟨hready, hvalid⟩ := frameAnswered_ready .ok (endTransaction .ok rest s)
    exact ⟨_, exec_busFrame_answered hst hi rfl, hready, hvalid, frameAnswered_ok_resp _⟩
  · obtain ⟨hready, hvalid⟩ := frameAnswered_ready (.err e) (endTransaction (.err e) rest s)
    exact ⟨_, exec_busFrame_answered hst hi (by simpa using he), hready, hvalid, frameAnswered_err_resp e _⟩

/-! ## SHOW as a run (R98) -/

/-- The word of SHOW, offered to a ready port with no word waiting, runs SHOW. -/
theorem runSteps_offered_showText {s t : State} {ins : List Input} (hp : s.portReady = true) (hw : s.waiting = [])
    (hi : s.inputs = .offer 0x40000000 :: ins) (h : exec .showText { s with inputs := ins } = .next t) :
    runSteps 1 s = .next t := by
  have hstep := (stepRunsTheAcceptedCommand s hp (by simp [resetNext, hi])).2 _ ins hw hi
  rw [decodeCommand_showText rfl] at hstep
  exact runSteps_succ_right rfl (hstep.trans h)

/-- The answer to a transaction leaves the encoder clear. -/
theorem EncoderClear.answered {s : State} {tx : Transaction} (h : EncoderClear s) (htx : outstanding s = some tx) (c : Ctrl)
    (r : BusAnswer) (rest : List Input) : EncoderClear (answerRule c r (endTransaction r rest s)) := by
  rw [endTransaction_some r rest htx, answerRule_frame]
  exact { h with }

/-- A run that has brought the block to the frame write ends, one step on, in READY with a response, and the write has joined
the observed list (R96). -/
theorem runSteps_frameTx_answered {n : Nat} {s t : State} {r : BusAnswer} {rest : List Input} (hrun : runSteps n s = .next t)
    (hst : t.st = .frameTx) (hclear : EncoderClear t) (hi : t.inputs = .answer r :: rest) (hf : r.fits t.build = true) :
    ∃ u, runSteps (n + 1) s = .next u ∧ u.st = .ready ∧ u.respValid = true ∧ EncoderClear u ∧
      u.busLog = t.busLog ++ [⟨⟨.raw, t.addr, t.txbuf.toList⟩, some r⟩] ∧
      (r = .ok → u.resp = 0) ∧ ∀ e, r = .err e → u.resp = 0x1C000000 ||| e.setWidth 32 := by
  have hstep := (step_answer (outstandingInstr_frameTx hst) hi).trans (exec_busFrame_answered hst hi hf)
  obtain ⟨hready, hvalid⟩ := frameAnswered_ready r (endTransaction r rest t)
  have htx := outstanding_frameTx hst
  obtain ⟨-, hlog, -⟩ := answerRule_endTransaction htx .frameTx r rest
  refine ⟨_, runSteps_succ_right hrun hstep, hready, hvalid, hclear.answered htx .frameTx r rest, hlog, ?_, ?_⟩
  · rintro rfl
    exact frameAnswered_ok_resp _
  · rintro e rfl
    exact (frameAnswered_err_resp e _).trans (busError_word_eq_or 3 e)

/-- Settles O47: each row is the step that accepts SHOW, and, where a frame is sent, the step that answers it. -/
theorem showSendsOneFrameOrNone : Obligations.ShowSendsOneFrameOrNone := by
  refine fun s rest hp hw => ⟨fun hst hi => ?_, fun hst hover hi => ?_, fun r hst ho hl hf hi => ?_⟩
  · exact ⟨_, runSteps_offered_showText hp hw hi (exec_showText_of_not_ready hst), rfl, rfl, rfl, rfl,
      { encoderClear_encClear s with }⟩
  · exact ⟨_, runSteps_offered_showText hp hw hi (exec_showText_of_overlong hst hover), hst, rfl, rfl, rfl,
      { encoderClear_encClear s with }⟩
  · have hsent := runSteps_offered_showText hp hw hi (exec_showText_of_le_four hst ho hl)
    exact runSteps_frameTx_answered hsent rfl { encoderClear_encClear s with } rfl hf

end Sys2Proof

/-! PROOFS of the family 44_control: the decoder's map, what a step does to the response and to the port, reset, NOP, STATUS,
one response per command, and the run that has ended. -/

namespace Sys2Proof

open Machine

/-! ## The decoder's map (R103) -/

/-- Settles O4: one lemma per opcode, and the meaning of RESERVED. -/
theorem decoderMapsEveryOpcode : Obligations.DecoderMapsEveryOpcode := by
  refine ⟨fun h w => ⟨decodeCommand_nop, ?illegalInit, ?legalInit, decodeCommand_char, decodeCommand_mask,
    decodeCommand_showText, decodeCommand_lookup, decodeCommand_clear, decodeCommand_status, decodeCommand_reserved⟩,
    exec_reserved⟩
  case illegalInit => exact fun hop ⟨hcustom, hmap⟩ => decodeCommand_init_illegal hop hcustom hmap
  case legalInit =>
    intro hop hlegal
    refine decodeCommand_init_legal hop ?_
    cases hcustom : w.getLsbD 7 with
    | false => exact .inl rfl
    | true => exact .inr (by simpa [hcustom] using hlegal)

/-! ## NOP and STATUS (R104, R105) -/

/-- Settles O22: NOP's meaning and its word, and the decoding of opcode 0x0. -/
theorem nopRespondsOk : Obligations.NopRespondsOk :=
  ⟨fun _ => rfl, rfl, fun _ _ hop => acceptedAs_of_decodeCommand (decodeCommand_nop hop)⟩

/-- The fields of a STATUS response, as R105 puts them together, below the bits that are zero. -/
theorem statusWord_eq_append (s : State) :
    (statusData s).setWidth 32 = 0#16 ++ (BitVec.ofBool s.mapSel ++ s.addr ++ BitVec.ofBool s.ovf ++ BitVec.ofBool s.pend ++
      s.ncells ++ s.st.code) := by
  rw [statusData, BitVec.setWidth_setWidth (by decide)]
  exact BitVec.setWidth_eq_append (by decide)

theorem exec_status (s : State) : exec .status s = .next (s.responding ((statusData s).setWidth 32)) :=
  congrArg Host.Outcome.next (respondOk_eq_responding (statusData s) s)

/-- No step accepts a command but on a ready port (R100). -/
theorem portReady_of_nextCommand {s : State} {i : Instr} (hn : nextCommand s = some i) : s.portReady = true := by
  by_contra hp
  rw [nextCommand_eq_none (.inr (by simpa using hp))] at hn
  cases hn

/-- The encodings of the idle states (R12, R13). -/
theorem code_of_idle {c : Ctrl} (h : c.idle = true) : c.code = 0 ∨ c.code = 4 ∨ c.code = 6 := by
  rcases (Ctrl.idle_iff c).mp h with rfl | rfl | rfl <;> decide

/-- Settles O30: STATUS's word taken apart, the idle states, and the decoding of opcode 0x7. -/
theorem statusReportsTheRegisters : Obligations.StatusReportsTheRegisters := by
  refine ⟨fun s => ⟨_, exec_status s, ?_⟩, fun s hn => ?_,
    fun _ _ hop => acceptedAs_of_decodeCommand (decodeCommand_status hop)⟩
  · rw [statusWord_eq_append, respCode]
    -- Each field lies within one part of the word; what is left is arithmetic on the positions.
    simp (disch := omega) only [BitVec.extractLsb'_append_eq_of_le, BitVec.extractLsb'_append_eq_of_add_le,
      BitVec.getLsbD_append]
    simp
  · exact code_of_idle ((portReady_iff s).mp (portReady_of_nextCommand hn)).1

/-! ## A word offered to a port that is not ready (R100) -/

/-- Settles O8: the port's move for an offer. -/
theorem offerWaitsWhileThePortIsNotReady : Obligations.OfferWaitsWhileThePortIsNotReady := by
  intro s w rest h7 hp hi
  apply step_done
  rw [nextMove_eq (by simp [hi]) h7, hp, moveNotReady, hi]
  rfl

/-! ## The waiting response (R101) -/

/-- A take of a waiting response that a rule has produced frees the register and records the word. -/
theorem step_take_response {s : State} {rest : List Input} (h7 : s.st ≠ .code7) (hv : s.respValid = true)
    (hc : respCode s.resp ≤ 4) (hi : s.inputs = .take :: rest) :
    step s = .next { s with inputs := rest, respValid := false, respLog := s.respLog ++ [s.resp] } := by
  have hp : s.portReady = false := by simp [State.portReady, hv]
  rw [step_take h7 (by simp [hp]) hi]
  rcases takeResponse_cases { s with inputs := rest } with ⟨h, -⟩ | ⟨-, -, h⟩ | ⟨-, h, -⟩
  · exact absurd (hv.symm.trans h) (by decide)
  · exact h
  · exact absurd hc (BitVec.not_le.mpr h)

/-- A step other than a reset leaves a waiting response, or is the take that records it: no command is accepted before the
take, and no answer comes, since the bus is not busy. -/
theorem step_keeps_response {s t : State} (hs : Serviceable s) (hv : s.respValid = true) (hr : resetNext s = false)
    (h : step s = .next t) :
    t.resp = s.resp ∧
      ((t.respValid = true ∧ t.respLog = s.respLog) ∨ (t.respValid = false ∧ t.respLog = s.respLog ++ [s.resp])) := by
  cases step_cases h with
  | reset rest hi hr' => exact absurd (hr.symm.trans hr') (by decide)
  | command w u hp => exact absurd (hv.symm.trans ((portReady_iff s).mp hp).2) (by decide)
  | surroundings _ _ _ _ ht => rw [ht]; exact ⟨rfl, .inl ⟨hv, rfl⟩⟩
  | take rest _ _ _ _ _ ht => rw [ht]; exact ⟨rfl, .inr ⟨rfl, rfl⟩⟩
  | answer r rest i _ _ _ hb => exact absurd (hv.symm.trans (hs.respFree hb)) (by decide)

/-- Settles O9: the take's step, and the case split of every step. -/
theorem responseWaitsUntilTaken : Obligations.ResponseWaitsUntilTaken :=
  ⟨fun _ _ => step_take_response, fun _ _ hs => step_keeps_response hs.serviceable⟩

/-! ## A port with nothing to accept (R107, R127) -/

/-- An answer that comes to a ready port where no word waits is used up (log entry 5). -/
theorem step_usedUpAnswer {s : State} {r : BusAnswer} {rest : List Input} (hp : s.portReady = true) (hw : s.waiting = [])
    (hi : s.inputs = .answer r :: rest) : step s = .next { s with inputs := rest } :=
  step_done (by rw [nextMove_of_ready hp (by simp [resetNext, hi]), moveReady, hw, hi])

/-- A ready port with no word and no move to come stays as it is (log entry 6). -/
theorem step_quiet {s : State} (hp : s.portReady = true) (hw : s.waiting = []) (hi : s.inputs = []) :
    step s = .next s :=
  step_done (by rw [nextMove_of_ready hp (by simp [resetNext, hi]), moveReady, hw, hi])

theorem runEnded_iff (s : State) :
    runEnded s = true ↔
      s.portReady = true ∧ s.waiting = [] ∧ ∀ m ∈ s.inputs, (∃ r, m = .answer r) ∨ m = .reset := by
  simp only [runEnded, State.portReady, Bool.and_eq_true, List.isEmpty_iff, List.all_eq_true, and_assoc]
  refine and_congr_right' (and_congr_right' (and_congr_right' (forall₂_congr fun m _ => ?_)))
  cases m <;> simp

/-- Settles O60: an ended run has at most an answer to come, which finds nothing outstanding. -/
theorem endedRunStaysEnded : Obligations.EndedRunStaysEnded := by
  intro s hended hr
  obtain ⟨hp, hw, hmoves⟩ := (runEnded_iff s).mp hended
  cases hi : s.inputs with
  | nil => exact ⟨s, step_quiet hp hw hi, hended, rfl⟩
  | cons m rest =>
    rw [hi] at hmoves
    obtain ⟨hm, hrest⟩ := List.forall_mem_cons.mp hmoves
    rcases hm with ⟨r, rfl⟩ | rfl
    · exact ⟨_, step_usedUpAnswer hp hw hi, (runEnded_iff _).mpr ⟨hp, hw, hrest⟩, rfl⟩
    · simp [resetNext, hi] at hr

/-! ## Reset (R127) -/

/-- Settles O10: the step is `resetBlock`, which leaves a ready port; no command is accepted in it. -/
theorem resetStepSetsEveryRegister : Obligations.ResetStepSetsEveryRegister := by
  intro s rest hi
  have hn : nextCommand s = none := nextCommand_eq_none (.inl (by simp [resetNext, hi]))
  have hclear : EncoderClear (resetBlock { s with inputs := rest }) := ⟨rfl, rfl, rfl, rfl, rfl⟩
  exact ⟨resetBlock { s with inputs := rest }, step_done (nextMove_reset hi), rfl, rfl, rfl, hclear, rfl, rfl, rfl, rfl,
    hn, rfl, fun r rest' hrest hw => step_usedUpAnswer rfl hw hrest⟩

/-! ## One response for each command (R102) -/

/-- The decoder names an instruction the block has a meaning for: INIT with `custom = 1` only where there is a custom map. -/
theorem wf_decodeCommand (h : Bool) (w : Word) : (decodeCommand h w).wf h = true := by
  unfold decodeCommand
  split
  case h_2 =>
    split
    · rfl
    · next hlegal => simpa [Instr.wf] using custom_and_not_eq_false_iff.mp (Bool.eq_false_iff.mpr hlegal)
  all_goals rfl

/-- The accepted command runs on the state but for the words that wait and the moves to come. -/
theorem exec_of_nextCommand {s t : State} {i : Instr} (hn : nextCommand s = some i) (h : step s = .next t) :
    hostCommand i = true ∧ i.wf s.build.hasCustomMap = true ∧
      ∃ ws ins, exec i { s with waiting := ws, inputs := ins } = .next t := by
  cases step_cases h with
  | command w u hp hr hn' hw hu he =>
    obtain rfl := Option.some.inj (hn'.symm.trans hn)
    exact ⟨decodeCommand_hostCommand _ _, wf_decodeCommand _ _, u.waiting, u.inputs, hu ▸ he⟩
  | reset _ _ _ hn' | surroundings _ hn' | take _ _ _ hn' | answer _ _ _ _ _ hn' => cases hn'.symm.trans hn

/-- A response is given in an idle state, or none is and the block is busy. -/
def RespondsOrBusy (t : State) : Prop :=
  (t.respValid = true ∧ t.st.busy = false) ∨ (t.respValid = false ∧ t.st.busy = true)

theorem exec_respondsOrBusy {i : Instr} {s t : State} (h : exec i s = .next t) (hc : hostCommand i = true)
    (hp : s.portReady = true) : RespondsOrBusy t := by
  obtain ⟨hidle, hv⟩ := (portReady_iff s).mp hp
  rcases exec_hostCommand_result hc h with ⟨hst, hv', -⟩ | ⟨hb, hv', -⟩
  · exact .inl ⟨hv', by rw [hst, Ctrl.busy_of_idle hidle]⟩
  · exact .inr ⟨hv'.trans hv, hb⟩

theorem answerRule_respondsOrBusy (r : BusAnswer) {s : State} (hb : s.st.busy = true) (hv : s.respValid = false) :
    RespondsOrBusy (answerRule s.st r s) := by
  rcases answerRule_result r hb with ⟨hidle, hv', -⟩ | ⟨hb', hv', -⟩
  · exact .inl ⟨hv', Ctrl.busy_of_idle hidle⟩
  · exact .inr ⟨hv'.trans hv, hb'⟩

/-- A SHOW in READY sends the frame exactly where the text fits the four positions (R95). -/
theorem exec_showText_busy_iff {s t : State} (hst : s.st = .ready) (h : exec .showText s = .next t) :
    t.st.busy = true ↔ s.ovf = false ∧ (encoderContents s).length ≤ 4 := by
  by_cases hfits : s.ovf = false ∧ (encoderContents s).length ≤ 4
  · obtain ⟨ho, hl⟩ := hfits
    obtain rfl := Host.Outcome.next.inj ((exec_showText_of_le_four hst ho hl).symm.trans h)
    exact iff_of_true rfl ⟨ho, hl⟩
  · have hover : s.ovf = true ∨ 4 < (encoderContents s).length := by
      rwa [Decidable.not_and_iff_or_not, Bool.not_eq_false, Nat.not_le] at hfits
    obtain rfl := Host.Outcome.next.inj ((exec_showText_of_overlong hst hover).symm.trans h)
    exact iff_of_false (by simp [State.responding, hst, Ctrl.busy]) hfits

/-- Of the commands in an idle state, those that wait are a legal INIT and the SHOW that sends a frame. -/
theorem exec_busy_iff {i : Instr} {s t : State} (h : exec i s = .next t) (hc : hostCommand i = true)
    (hwf : i.wf s.build.hasCustomMap = true) (hidle : s.st.idle = true) :
    t.st.busy = true ↔ (∃ a c, i = .init a c) ∨
      (i = .showText ∧ s.st = .ready ∧ s.ovf = false ∧ (encoderContents s).length ≤ 4) := by
  constructor
  · intro hb
    cases exec_hostCommand_cases hc h with
    | responds code data u hu hle hne ht =>
      have hst : t.st = s.st := by rw [ht]; exact hu.encoderOnly.st
      rw [hst, Ctrl.busy_of_idle hidle] at hb
      cases hb
    | startsBringUp a c hi => exact .inl ⟨a, c, hi⟩
    | startsFrame c n hi hst =>
      subst hi
      exact .inr ⟨rfl, hst, (exec_showText_busy_iff hst h).mp hb⟩
  · rintro (⟨a, c, rfl⟩ | ⟨rfl, hst, hfits⟩)
    · have hlegal : c = false ∨ s.build.hasCustomMap = true := by simpa [Instr.wf] using hwf
      obtain rfl := Host.Outcome.next.inj ((exec_init_legal a hlegal).symm.trans h)
      rfl
    · exact (exec_showText_busy_iff hst h).mpr hfits

/-- Settles O59: the accepted command's meaning, and the answer's rule. -/
theorem everyCommandGetsOneResponse : Obligations.EveryCommandGetsOneResponse := by
  constructor
  · intro s t i hn h
    have hp := portReady_of_nextCommand hn
    obtain ⟨hc, hwf, ws, ins, he⟩ := exec_of_nextCommand hn h
    have hbusy := exec_busy_iff he hc hwf ((portReady_iff s).mp hp).1
    exact ⟨exec_respondsOrBusy he hc hp, hbusy⟩
  · intro s t hb hv ha h
    cases step_cases h with
    | reset rest hi => simp [answerNext, hi] at ha
    | command w u hp => exact absurd (hp.symm.trans (portReady_of_busy hb)) (by decide)
    | surroundings _ _ _ hno => simp [hb, ha] at hno
    | take rest hi => simp [answerNext, hi] at ha
    | answer r rest i _ _ _ _ _ _ ht =>
      have hst : (endTransaction r rest s).st = s.st := endTransaction_st r rest s
      have hrule := answerRule_respondsOrBusy r (s := endTransaction r rest s) (hst ▸ hb) (by simpa using hv)
      rwa [hst, ← ht] at hrule

end Sys2Proof

/-! PROOFS of the family 60_exceptions: a text command outside READY, a bus error's report, and the bus that never answers. -/

namespace Sys2Proof

open Machine

/-! ## Text commands outside READY (R114) -/

/-- Settles O24: a command is accepted in an idle state only, and outside READY the three meanings agree. -/
theorem textCommandsNeedReady : Obligations.TextCommandsNeedReady := by
  refine fun s hst => ⟨fun i hn => ?_, fun cp => exec_char_of_not_ready cp hst, fun m => exec_mask_of_not_ready m hst,
    exec_showText_of_not_ready hst⟩
  have hidle := ((portReady_iff s).mp (portReady_of_nextCommand hn)).1
  rcases (Ctrl.idle_iff s.st).mp hidle with h | h | h
  · exact .inl h
  · exact absurd h hst
  · exact .inr h

/-! ## A bus error's report (R110) -/

/-- The stage that an error of the transaction outstanding in `c` is reported with (R110). -/
def errorStage (c : Ctrl) : BitVec 2 :=
  if c = .initOsc then 0 else if c = .initDisp then 1 else if c = .initBrt then 2 else 3

/-- Where the controller goes on an error of the transaction outstanding in `c` (R78, R96). -/
def afterError (c : Ctrl) : Ctrl := if c = .frameTx then .ready else .failed

/-- The four rules for an `ERR(e)` answer are one: the error is raised with its stage, and the controller moves on. -/
theorem answerRule_err {c : Ctrl} (hb : c.busy = true) (e : BitVec 24) (s : State) :
    answerRule c (.err e) s = raise (.busTransaction (errorStage c) e) { s with st := afterError c } := by
  rcases (Ctrl.busy_iff c).mp hb with rfl | rfl | rfl | rfl <;> rfl

theorem idle_afterError (c : Ctrl) : (afterError c).idle = true := by
  unfold afterError
  split <;> rfl

/-- The step of an `ERR(e)` answer that the bus can give. -/
theorem step_answer_err {s : State} {e : BitVec 24} {rest : List Input} (hb : s.st.busy = true)
    (he : e.toNat < 2 ^ s.build.busErrWidth) (hi : s.inputs = .answer (.err e) :: rest) :
    step s = .next (raise (.busTransaction (errorStage s.st) e)
      { endTransaction (.err e) rest s with st := afterError s.st }) := by
  obtain ⟨-, i, -, ho⟩ := exists_outstanding_of_busy hb
  rw [step_answer ho hi, exec_answered_fits ho hi (by simpa using he), answerRule_err hb]

/-- A BUS_ERROR word holds its stage above the two zero bits (R54). -/
theorem busTransaction_stageBits (stage : BitVec 2) (e : BitVec 24) :
    (errorData (.busTransaction stage e)).extractLsb' 26 2 = stage := by
  rw [errorData, BitVec.extractLsb'_append_eq_of_le (by omega)]
  exact BitVec.extractLsb'_append_eq_left

/-- Above the code's width, the 24 bits it is reported in are zero. -/
theorem busTransaction_getLsbD_of_le (stage : BitVec 2) {e : BitVec 24} {n k : Nat} (he : e.toNat < 2 ^ n) (hn : n ≤ k)
    (hk : k ≤ 23) : (errorData (.busTransaction stage e)).getLsbD k = false := by
  have hbit : (errorData (.busTransaction stage e)).getLsbD k = e.getLsbD k := by
    rw [errorData, BitVec.getLsbD_append, if_pos (by omega)]
  rw [hbit]
  exact Nat.testBit_lt_two_pow (he.trans_le (Nat.pow_le_pow_right (by decide) hn))

/-- Settles O36: the step raises the error with its stage, and the response's data is read field by field. -/
theorem busErrorIsReportedVerbatim : Obligations.BusErrorIsReportedVerbatim := by
  intro s e rest hb he hi
  obtain ⟨hzero, hcode⟩ := busTransaction_errorBits (errorStage s.st) e
  refine ⟨_, step_answer_err hb he hi, outstanding_of_idle (idle_afterError s.st), rfl, respCode_raise _ _, ?_⟩
  rw [raise_eq, respData_respond]
  exact ⟨hcode, fun k hn hk => busTransaction_getLsbD_of_le _ he hn hk, hzero, busTransaction_stageBits _ e, rfl⟩

/-! ## A bus that never answers (R122, R135) -/

theorem Machine.Ctrl.ne_code7_of_busy {c : Ctrl} (hb : c.busy = true) : c ≠ .code7 := by
  rintro rfl
  cases hb

/-- A port that is not ready, with no move to come, stays as it is (log entry 6). -/
theorem step_quiet_of_not_ready {s : State} (h7 : s.st ≠ .code7) (hp : s.portReady = false) (hi : s.inputs = []) :
    step s = .next s := by
  apply step_done
  rw [nextMove_eq (by simp [hi]) h7, hp, moveNotReady, hi]
  rfl

/-- While the block is busy and the surroundings only offer words, a step moves words from the moves to come to the words that
wait, and does nothing else. -/
theorem step_of_onlyOffers {s : State} (hb : s.st.busy = true) (ho : onlyOffers s = true) :
    ∃ ws ins, step s = .next { s with waiting := ws, inputs := ins } ∧
      onlyOffers { s with waiting := ws, inputs := ins } = true := by
  have h7 := Ctrl.ne_code7_of_busy hb
  have hp := portReady_of_busy hb
  cases hi : s.inputs with
  | nil => exact ⟨s.waiting, s.inputs, step_quiet_of_not_ready h7 hp hi, ho⟩
  | cons m rest =>
    cases m with
    | offer w =>
      have hrest : onlyOffers { s with inputs := rest } = true := by simpa [onlyOffers, hi] using ho
      exact ⟨_, _, offerWaitsWhileThePortIsNotReady s w rest h7 hp hi, hrest⟩
    | take | answer _ | reset => simp [onlyOffers, hi] at ho

/-- Any number of such steps leaves all but the words that wait and the moves to come. -/
theorem runSteps_of_onlyOffers (n : Nat) {s : State} (hb : s.st.busy = true) (ho : onlyOffers s = true) :
    ∃ ws ins, runSteps n s = .next { s with waiting := ws, inputs := ins } := by
  induction n generalizing s with
  | zero => exact ⟨s.waiting, s.inputs, rfl⟩
  | succ n ih =>
    obtain ⟨ws, ins, hstep, ho'⟩ := step_of_onlyOffers hb ho
    rw [runSteps, hstep]
    exact ih (s := { s with waiting := ws, inputs := ins }) hb ho'

/-- Settles O13: the registers and the observation stay, and a busy state's port accepts nothing. -/
theorem silentBusKeepsTheBlockBusy : Obligations.SilentBusKeepsTheBlockBusy := by
  intro n s _ hb ho
  obtain ⟨ws, ins, hrun⟩ := runSteps_of_onlyOffers n hb ho
  exact ⟨_, hrun, rfl, rfl, rfl, nextCommand_eq_none (.inr (portReady_of_busy hb))⟩

end Sys2Proof

/-! PROOFS of the family 70_reset_and_hazards: what a reset step leaves around the block, and the reset values. -/

namespace Sys2Proof

open Machine

/-! ## What a reset makes of the chip shadow (R123, R129) -/

/-- With nothing outstanding, nothing reaches the chip in a reset. -/
theorem resetBlock_chip_none {s : State} (h : outstanding s = none) : (resetBlock s).chip = s.chip := by
  simp [resetBlock, h]

/-- The chip may have got any part of the transaction a reset cuts (R129, log entry 9). -/
theorem resetBlock_chip_some {s : State} {tx : Transaction} (h : outstanding s = some tx) :
    (resetBlock s).chip = s.chip.mayHaveTold tx.bytes := by
  simp [resetBlock, h]

/-- Where a reset stands first, a step that answers has reset the block. -/
theorem eq_resetBlock_of_step {s t : State} {rest : List Input} (hi : s.inputs = .reset :: rest)
    (h : step s = .next t) : t = resetBlock { s with inputs := rest } := by
  rw [step_done (nextMove_reset hi)] at h
  exact (Host.Outcome.next.inj h).symm

/-- Settles O11: the step is `resetBlock` after the move is used up, which touches no surroundings but the log and the chip;
these two by whether a transaction is cut. -/
theorem resetStepKeepsTheSurroundings : Obligations.ResetStepKeepsTheSurroundings := by
  intro s t rest hi hstep
  obtain rfl := eq_resetBlock_of_step hi hstep
  have hout : outstanding { s with inputs := rest } = outstanding s := rfl
  rw [← hout, resetBlock_busLog]
  exact ⟨resetBlock_build _, resetBlock_waiting _, resetBlock_inputs _, resetBlock_respLog _,
    fun ho => ⟨issued_none ho, resetBlock_chip_none ho⟩,
    fun _ ho => ⟨issued_some ho, resetBlock_chip_some ho⟩⟩

/-! ## The reset values (R127) -/

/-- Settles O12: each register of `State.reset` is written out there at the value the spec gives. -/
theorem resetStateHoldsTheSpecValues : Obligations.ResetStateHoldsTheSpecValues :=
  ⟨rfl, rfl, rfl, rfl, rfl, rfl, rfl, rfl, rfl, rfl, rfl⟩

end Sys2Proof
